-- ==== Sys2Proof/Word.lean ====
section
/-! DEFINITION. The widths of the block's words (R8, R9). Every value is unsigned (R10). -/

namespace Sys2Proof

/-- A byte: payload byte, checksum lane, data of a beat (R8). -/
abbrev Byte := BitVec 8

/-- The payload_length field and the remaining-byte counter (R8, R9). -/
abbrev Half := BitVec 16

/-- The baud rate, a command's operand, a response's data (R8, R9). -/
abbrev Word := BitVec 32

/-- A command word `CMD[35:0]` (R77). -/
abbrev CmdWord := BitVec 36

/-- A response word `RSP[35:0]` (R81). -/
abbrev RspWord := BitVec 36

/-- An output beat `BEAT[8:0]` (R82). -/
abbrev BeatWord := BitVec 9

end Sys2Proof
end

