-- ==== Sys2Proof/Syntax.lean ====
section
/-! DEFINITION. The commands: one constructor per row of spec/opcode_table.json (R78). -/

namespace Sys2Proof

/-- The instruction set. The ten commands of R78 carry the operand of their format (R77); the six reserved
opcodes are rows of the table too, and carry the 32 operand bits the table calls "ignored" (log 3). -/
inductive Instr where
  /-- R150: do nothing. -/
  | nop
  /-- R103: clear the checksum pair. -/
  | ckclr
  /-- R104: feed one byte to the checksum. -/
  | ckupd (byte : Byte)
  /-- R105: return the checksum pair. -/
  | ckrd
  /-- R121: set the baud rate. -/
  | setbaud (word : Word)
  /-- R122: mark the baud rate unresolved. -/
  | clrbaud
  /-- R123: begin a packet; the operand is the payload length in bytes. -/
  | start (word : Word)
  /-- R127: one payload byte. -/
  | push (byte : Byte)
  /-- R152: read the status word. -/
  | strd
  /-- R153: clear the error flags. -/
  | errclr
  /-- R154: reserved opcode 0xA. -/
  | reservedA (arg : Word)
  /-- R154: reserved opcode 0xB. -/
  | reservedB (arg : Word)
  /-- R154: reserved opcode 0xC. -/
  | reservedC (arg : Word)
  /-- R154: reserved opcode 0xD. -/
  | reservedD (arg : Word)
  /-- R154: reserved opcode 0xE. -/
  | reservedE (arg : Word)
  /-- R154: reserved opcode 0xF. -/
  | reservedF (arg : Word)
  deriving DecidableEq, Repr

/-- The formats of R77; `reserved` is the table's word for the rows 0xA to 0xF. -/
inductive Format where
  /-- No operand: all of `CMD[31:0]` must be 0. -/
  | z
  /-- Byte operand in `CMD[7:0]`: `CMD[31:8]` must be 0. -/
  | b
  /-- Word operand in `CMD[31:0]`. -/
  | w
  /-- A reserved opcode: no operand, any operand bits. -/
  | reserved
  deriving DecidableEq, Repr

end Sys2Proof
end

