-- ==== Sys2Proof/WellFormed.lean ====
section
/-! DEFINITION. Which instructions are legal commands (R80). -/

namespace Sys2Proof

/-- The format of each instruction (R78's table). -/
def Instr.format : Instr → Format
  | .nop => .z
  | .ckclr => .z
  | .ckupd _ => .b
  | .ckrd => .z
  | .setbaud _ => .w
  | .clrbaud => .z
  | .start _ => .w
  | .push _ => .b
  | .strd => .z
  | .errclr => .z
  | .reservedA _ => .reserved
  | .reservedB _ => .reserved
  | .reservedC _ => .reserved
  | .reservedD _ => .reserved
  | .reservedE _ => .reserved
  | .reservedF _ => .reserved

/-- A well-formed instruction is a legal command: its opcode is 0x0 to 0x9 (R80). That its operand fits its
format is carried by the operand's type, so the reserved opcodes are the only ill-formed terms; the machine
runs those too (R154). -/
def Instr.wellFormed : Instr → Bool
  | .nop => true
  | .ckclr => true
  | .ckupd _ => true
  | .ckrd => true
  | .setbaud _ => true
  | .clrbaud => true
  | .start _ => true
  | .push _ => true
  | .strd => true
  | .errclr => true
  | .reservedA _ => false
  | .reservedB _ => false
  | .reservedC _ => false
  | .reservedD _ => false
  | .reservedE _ => false
  | .reservedF _ => false

end Sys2Proof
end

