-- ==== Sys2Proof/Decode.lean ====
section
/-! DEFINITION. The command word: the decoder of R80, the encoder (R77, R78), the opcode table as data, and
the host's table entry point. -/

namespace Sys2Proof

/-- Why a word names no instruction: a 1 in an operand bit its format marks "must be 0" (R80, 93 V2). -/
inductive IllegalWord where
  /-- A format Z opcode with `arg != 0`. -/
  | operandNotZero (opc : BitVec 4)
  /-- A format B opcode with `arg[31:8] != 0`. -/
  | byteOperandTooWide (opc : BitVec 4)
  deriving DecidableEq, Repr

/-- What decoding answers: an instruction, or the reason there is none. -/
inductive Decoded where
  | instr (i : Instr)
  | illegal (why : IllegalWord)
  deriving DecidableEq, Repr

/-- `CMD[35:32]`, the opcode (R77). -/
def opcOf (w : CmdWord) : BitVec 4 := w.extractLsb' 32 4

/-- `CMD[31:0]`, the operand (R77). -/
def argOf (w : CmdWord) : Word := w.extractLsb' 0 32

/-- `arg[7:0]`, the byte operand of format B (R79). -/
def byteOf (arg : Word) : Byte := arg.extractLsb' 0 8

/-- Format Z: no operand bit may be 1. -/
def decodeZ (opc : BitVec 4) (arg : Word) (i : Instr) : Decoded :=
  if arg = 0#32 then .instr i else .illegal (.operandNotZero opc)

/-- Format B: no bit of `arg[31:8]` may be 1. -/
def decodeB (opc : BitVec 4) (arg : Word) (f : Byte → Instr) : Decoded :=
  if arg.extractLsb' 8 24 = 0#24 then .instr (f (byteOf arg)) else .illegal (.byteOperandTooWide opc)

/-- `decode` of R80 on the two fields. A reserved opcode decodes to its own row of the table whatever its
operand bits (log 3); the last pattern is met by 0xF alone. -/
def decodeFields (opc : BitVec 4) (arg : Word) : Decoded :=
  match opc with
  | 0x0#4 => decodeZ opc arg .nop
  | 0x1#4 => decodeZ opc arg .ckclr
  | 0x2#4 => decodeB opc arg .ckupd
  | 0x3#4 => decodeZ opc arg .ckrd
  | 0x4#4 => .instr (.setbaud arg)
  | 0x5#4 => decodeZ opc arg .clrbaud
  | 0x6#4 => .instr (.start arg)
  | 0x7#4 => decodeB opc arg .push
  | 0x8#4 => decodeZ opc arg .strd
  | 0x9#4 => decodeZ opc arg .errclr
  | 0xA#4 => .instr (.reservedA arg)
  | 0xB#4 => .instr (.reservedB arg)
  | 0xC#4 => .instr (.reservedC arg)
  | 0xD#4 => .instr (.reservedD arg)
  | 0xE#4 => .instr (.reservedE arg)
  | _ => .instr (.reservedF arg)

/-- `decode` of R80: total on the `2^36` words, the same in every state (R85). -/
def decode (w : CmdWord) : Decoded := decodeFields (opcOf w) (argOf w)

/-- The opcode of each instruction (R78). -/
def Instr.opcode : Instr → BitVec 4
  | .nop => 0x0#4
  | .ckclr => 0x1#4
  | .ckupd _ => 0x2#4
  | .ckrd => 0x3#4
  | .setbaud _ => 0x4#4
  | .clrbaud => 0x5#4
  | .start _ => 0x6#4
  | .push _ => 0x7#4
  | .strd => 0x8#4
  | .errclr => 0x9#4
  | .reservedA _ => 0xA#4
  | .reservedB _ => 0xB#4
  | .reservedC _ => 0xC#4
  | .reservedD _ => 0xD#4
  | .reservedE _ => 0xE#4
  | .reservedF _ => 0xF#4

/-- The operand bits of each instruction (R77, R79): 0 for format Z, the byte in the low 8 bits for format B,
the whole word for format W. -/
def Instr.arg : Instr → Word
  | .nop => 0#32
  | .ckclr => 0#32
  | .ckupd b => b.setWidth 32
  | .ckrd => 0#32
  | .setbaud v => v
  | .clrbaud => 0#32
  | .start n => n
  | .push b => b.setWidth 32
  | .strd => 0#32
  | .errclr => 0#32
  | .reservedA a => a
  | .reservedB a => a
  | .reservedC a => a
  | .reservedD a => a
  | .reservedE a => a
  | .reservedF a => a

/-- The command word of an instruction: opcode above operand (R77). -/
def encode (i : Instr) : CmdWord := i.opcode ++ i.arg

/-- A row of spec/opcode_table.json: a word belongs to it when its bits under `mask` are `bits`. -/
structure TableRow where
  mnemonic : String
  bits : CmdWord
  mask : CmdWord
  deriving DecidableEq, Repr

/-- The row of each instruction, as the table has it. -/
def Instr.row : Instr → TableRow
  | .nop => ⟨"NOP", 0x000000000#36, 0xFFFFFFFFF#36⟩
  | .ckclr => ⟨"CKCLR", 0x100000000#36, 0xFFFFFFFFF#36⟩
  | .ckupd _ => ⟨"CKUPD", 0x200000000#36, 0xFFFFFFF00#36⟩
  | .ckrd => ⟨"CKRD", 0x300000000#36, 0xFFFFFFFFF#36⟩
  | .setbaud _ => ⟨"SETBAUD", 0x400000000#36, 0xF00000000#36⟩
  | .clrbaud => ⟨"CLRBAUD", 0x500000000#36, 0xFFFFFFFFF#36⟩
  | .start _ => ⟨"START", 0x600000000#36, 0xF00000000#36⟩
  | .push _ => ⟨"PUSH", 0x700000000#36, 0xFFFFFFF00#36⟩
  | .strd => ⟨"STRD", 0x800000000#36, 0xFFFFFFFFF#36⟩
  | .errclr => ⟨"ERRCLR", 0x900000000#36, 0xFFFFFFFFF#36⟩
  | .reservedA _ => ⟨"RESERVED_A", 0xA00000000#36, 0xF00000000#36⟩
  | .reservedB _ => ⟨"RESERVED_B", 0xB00000000#36, 0xF00000000#36⟩
  | .reservedC _ => ⟨"RESERVED_C", 0xC00000000#36, 0xF00000000#36⟩
  | .reservedD _ => ⟨"RESERVED_D", 0xD00000000#36, 0xF00000000#36⟩
  | .reservedE _ => ⟨"RESERVED_E", 0xE00000000#36, 0xF00000000#36⟩
  | .reservedF _ => ⟨"RESERVED_F", 0xF00000000#36, 0xF00000000#36⟩

/-- The word of the table's first `nbits` bits, the bits above them 0. A command is one 36-bit word with no
byte order (R54, R77), so the table's bit numbers are `CMD`'s. -/
def tableWord (nbits w : Nat) : CmdWord := BitVec.ofNat 36 (w % 2 ^ nbits)

/-- The host's entry point: the instruction the decoder reads from the word, none where R80 calls the word
illegal, or where the number has a bit above bit 35 and so is no command word. -/
def decodeTableWord (nbits w : Nat) : Option Instr :=
  if w % 2 ^ nbits < 2 ^ 36 then
    match decode (tableWord nbits w) with
    | .instr i => some i
    | .illegal _ => none
  else none

end Sys2Proof
end

