-- ==== Sys2Proof/Machine/State.lean ====
section
/-! DEFINITION. The architectural state (R20) as plain data, and the state after power-on (R34, R190).

The six registers and the output history are the spec's whole state (R20). Two further fields carry the
ports of R50 that a step reads and writes: the commands the host has presented (log 1) and the responses it
has been given (log 2). -/

namespace Sys2Proof.Machine

/-- The five ways a command fails (R160, codes 1 to 5). -/
inductive ErrCode where
  /-- Code 1: raised by START when the baud rate is unresolved or 0 (R163). -/
  | invalidConfiguration
  /-- Code 2: raised by START when the length exceeds 65535 (R164). -/
  | payloadTooLarge
  /-- Code 3: raised by CKCLR, CKUPD and START while a packet is in progress (R167). -/
  | busy
  /-- Code 4: raised by PUSH when no packet is in progress (R168). -/
  | sequence
  /-- Code 5: raised by an illegal command word (R154). -/
  | illegalCommand
  deriving DecidableEq, Repr

/-- The response codes: `OK` or a failure; the numbers 6 to 15 are never produced, so the type has no more
(R160, 93 V3). -/
inductive RspCode where
  | ok
  | err (c : ErrCode)
  deriving DecidableEq, Repr

/-- A response: its code and 32 bits of data (R81). -/
structure Response where
  code : RspCode
  data : Word
  deriving DecidableEq, Repr

/-- An output beat: a data byte and the last flag (R29, R82). -/
structure Beat where
  data : Byte
  last : Bool
  deriving DecidableEq, Repr

/-- An element of the output history (R29). -/
inductive OutElem where
  | beat (b : Beat)
  /-- The marker `Rst` of a reset after power-on (R191). -/
  | rst
  deriving DecidableEq, Repr

/-- What the host can do to the block: present a command word, or reset it between two commands (R190,
R203). -/
inductive HostEvent where
  | command (w : CmdWord)
  | reset
  deriving DecidableEq, Repr

/-- No step ends in a fault: R151, "No command hangs, waits for another agent, or leaves a register
undefined". A failed command is an ordinary next state (R162, 93 V14), so this type has no constructor and
nobody raises one. -/
inductive Fault where
  deriving DecidableEq, Repr

/-- Why an instruction has no meaning in this model. -/
inductive Refusal where
  /-- Raised by exec's arm of an instruction that has no meaning yet; safe. Every arm has its meaning, so
  nobody raises it. -/
  | notModelled (mnemonic : String)
  deriving DecidableEq, Repr

/-- The state of the block. -/
structure State where
  /-- `CK_A`, the first running sum (R21). -/
  ckA : Byte
  /-- `CK_B`, the second running sum (R22). -/
  ckB : Byte
  /-- `REM`, the payload bytes still to be pushed (R24). -/
  rem : Half
  /-- `BAUD`, the baud rate the next START will use (R26). -/
  baud : Word
  /-- `BAUD_KNOWN`, whether `baud` holds a resolved setting (R26). -/
  baudKnown : Bool
  /-- `ERR`, the sticky error flags (R27). -/
  err : BitVec 5
  /-- `OUT`, every beat and reset marker since power-on, oldest first (R29). -/
  out : List OutElem
  /-- The events the host has presented and the block has not yet taken, next one first (R50 (a), R57;
  log 1). -/
  input : List HostEvent
  /-- The responses given since power-on, oldest first (R50 (b), R81; log 2). -/
  responses : List Response
  deriving DecidableEq, Repr

/-- How a step or a meaning ends. -/
abbrev Result := Host.Outcome State Fault Refusal

/-- The block right after power-on: every register at the value of R34, `OUT = []`, and nothing yet presented
or answered. -/
def State.reset : State where
  ckA := 0#8
  ckB := 0#8
  rem := 0#16
  baud := 0#32
  baudKnown := false
  err := 0#5
  out := []
  input := []
  responses := []

end Sys2Proof.Machine
end

