-- ==== Sys2Proof/Machine/Operands.lean ====
section
/-! DEFINITION. The forms data takes at the block's ports and in the packet: little-endian cutting (R51, R52),
the signature (R71), the response word and beat (R81, R82), and the tests START makes of its operands. -/

namespace Sys2Proof.Machine

/-- `le16` of R51: low byte first. -/
def le16 (v : Half) : List Byte := [v.extractLsb' 0 8, v.extractLsb' 8 8]

/-- `le32` of R52: lowest byte first. -/
def le32 (v : Word) : List Byte :=
  [v.extractLsb' 0 8, v.extractLsb' 8 8, v.extractLsb' 16 8, v.extractLsb' 24 8]

/-- The signature of R71: two bytes in this order, not a number (R53). -/
def signature : List Byte := [0xB5#8, 0x62#8]

/-- `n[15:0]` of START's operand (R123). -/
def lengthField (n : Word) : Half := n.extractLsb' 0 16

/-- The test `n > 0xFFFF` of START (R123, R125). -/
def lengthTooLarge (n : Word) : Bool := decide (0xFFFF#32 < n)

/-- The six header bytes that enter the checksum: payload_length, then baudrate (R75, R123). -/
def headerFields (n : Half) (b : Word) : List Byte := le16 n ++ le32 b

/-- The data of CKRD's response: `zext_32(CK_B ++ CK_A)` (R81, R105). -/
def pairData (a b : Byte) : Word := (b ++ a : BitVec 16).setWidth 32

/-- The number of a response code (R160). -/
def RspCode.number : RspCode → BitVec 4
  | .ok => 0#4
  | .err .invalidConfiguration => 1#4
  | .err .payloadTooLarge => 2#4
  | .err .busy => 3#4
  | .err .sequence => 4#4
  | .err .illegalCommand => 5#4

/-- The class `InvalidInput` of R161: codes 1 and 2 and no other. -/
def RspCode.isInvalidInput : RspCode → Bool
  | .ok => false
  | .err .invalidConfiguration => true
  | .err .payloadTooLarge => true
  | .err .busy => false
  | .err .sequence => false
  | .err .illegalCommand => false

/-- The response word: code in `RSP[35:32]`, data in `RSP[31:0]` (R81). -/
def Response.word (r : Response) : RspWord := r.code.number ++ r.data

/-- The beat as it leaves the block: data in `BEAT[7:0]`, last flag in `BEAT[8]` (R82). -/
def Beat.word (b : Beat) : BeatWord := BitVec.ofBool b.last ++ b.data

end Sys2Proof.Machine
end

