-- ==== Sys2Proof/Machine/Flags.lean ====
section
/-! DEFINITION. The error flags (R27), the busy predicate (R24) and the status word (R28). -/

namespace Sys2Proof.Machine

/-- The flag of `ERR` that a failure sets: bit `c - 1` for code `c` (R27, R162). -/
def ErrCode.flag : ErrCode → BitVec 5
  | .invalidConfiguration => 0b00001#5
  | .payloadTooLarge => 0b00010#5
  | .busy => 0b00100#5
  | .sequence => 0b01000#5
  | .illegalCommand => 0b10000#5

/-- `busy`: a packet is in progress, `REM != 0` (R24). -/
def State.busy (s : State) : Bool := decide (s.rem ≠ 0#16)

/-- Whether START's sample of the baud rate is a positive integer (R123, R163). -/
def State.baudValid (s : State) : Bool := s.baudKnown && decide (s.baud ≠ 0#32)

/-- The status word of R28:
`zext_32(0b000 ++ ERR ++ 0b000000 ++ BAUD_KNOWN ++ BUSY ++ REM)`. -/
def State.status (s : State) : Word :=
  0b000#3 ++ s.err ++ 0b000000#6 ++ BitVec.ofBool s.baudKnown ++ BitVec.ofBool s.busy ++ s.rem

end Sys2Proof.Machine
end

