-- ==== Sys2Proof/Machine/Fletcher.lean ====
section
/-! DEFINITION. The checksum function (R100, R101). -/

namespace Sys2Proof.Machine

/-- `ck_step` of R100: both additions modulo 256, the second with the new first sum. -/
def ckStep (p : Byte × Byte) (x : Byte) : Byte × Byte := (p.1 + x, p.2 + (p.1 + x))

/-- `fletcher8` of R101: the fold of `ckStep` from the left, starting at `(0, 0)`. -/
def fletcher8 (data : List Byte) : Byte × Byte := data.foldl ckStep (0#8, 0#8)

end Sys2Proof.Machine
end

