-- ==== Sys2Proof/Machine/Ops.lean ====
section
/-! DEFINITION. The named operations on the state: emitting, feeding the pair, responding, failing (R162),
reset (R190, R191), and taking the next event from the host. A failed command is the block's only kind of
exception: `State.raise` is its whole entry (R170), and there is no return, "because nothing was entered"
(R171). -/

namespace Sys2Proof.Machine

/-- `Emit(d, l)`: append one beat to `OUT` (R11, R29). -/
def State.emit (s : State) (d : Byte) (l : Bool) : State :=
  { s with out := s.out ++ [.beat ⟨d, l⟩] }

/-- `Respond(c, d)` (R11, R81). -/
def State.respond (s : State) (c : RspCode) (d : Word) : State :=
  { s with responses := s.responses ++ [⟨c, d⟩] }

/-- `Respond(OK, 0)`, the answer of every command that returns nothing (R81). -/
def State.ok (s : State) : State := s.respond .ok 0#32

/-- `(CK_A, CK_B) <- (a, b)`. -/
def State.setPair (s : State) (p : Byte × Byte) : State := { s with ckA := p.1, ckB := p.2 }

/-- `(CK_A, CK_B) <- ck_step((CK_A, CK_B), x)` (R100). -/
def State.feed (s : State) (x : Byte) : State := s.setPair (ckStep (s.ckA, s.ckB) x)

/-- One byte of the packet that the checksum covers: emitted with last flag 0, then fed (R123, R127). -/
def State.emitFeed (s : State) (x : Byte) : State := (s.emit x false).feed x

/-- The end of a packet: `Emit(CK_A, 0); Emit(CK_B, 1)` (R128). -/
def State.finish (s : State) : State := (s.emit s.ckA false).emit s.ckB true

/-- Finish the packet if no payload byte is left to come (the test that ends START and PUSH). -/
def State.finishIfDone (s : State) : State := if s.rem = 0#16 then s.finish else s

/-- `REM <- n`. -/
def State.setRem (s : State) (n : Half) : State := { s with rem := n }

/-- `BAUD <- v, BAUD_KNOWN <- k`. -/
def State.setBaud (s : State) (v : Word) (k : Bool) : State := { s with baud := v, baudKnown := k }

/-- Set the sticky flag of a failure: the other four flags are unchanged (R27, R162). -/
def State.setFlag (s : State) (c : ErrCode) : State := { s with err := s.err ||| c.flag }

/-- `ERR <- 0b00000` (R153). -/
def State.clearFlags (s : State) : State := { s with err := 0#5 }

/-- `raise Err(c)`: set the sticky flag, respond with the code and data 0, nothing else (R162). -/
def State.raise (s : State) (c : ErrCode) : State := (s.setFlag c).respond (.err c) 0#32

/-- An illegal command word fails with `IllegalCommand`, whatever made it illegal and before any state is
read (R154, R165). -/
def State.raiseIllegal (s : State) : State := s.raise .illegalCommand

/-- The reset event (R190, R191): every register to the value of R34, the marker `Rst` appended to `OUT`. The
event is no command and gets no response. -/
def State.takeReset (s : State) : State :=
  { s with ckA := 0#8, ckB := 0#8, rem := 0#16, baud := 0#32, baudKnown := false, err := 0#5,
           out := s.out ++ [.rst] }

/-- The next event the host presents, with the state that has taken it; none when the host presents
nothing (R57). -/
def State.nextEvent (s : State) : Option (HostEvent × State) :=
  match s.input with
  | [] => none
  | e :: rest => some (e, { s with input := rest })

/-- Between commands the block "holds its registers and does nothing" (R178). -/
def State.hold (s : State) : State := s

/-- The host presents a command word next, before anything it has already presented. -/
def State.present (s : State) (w : CmdWord) : State := { s with input := .command w :: s.input }

end Sys2Proof.Machine
end

