-- ==== Sys2Proof/Machine/Checksum.lean ====
section
/-! DEFINITION. The checksum commands CKCLR, CKUPD, CKRD (40_checksum.md). -/

namespace Sys2Proof.Machine

/-- CKCLR (R103): refused with `Busy` while a packet is in progress. -/
def execCkclr (s : State) : Result :=
  if s.busy then .next (s.raise .busy) else .next (s.setPair (0#8, 0#8)).ok

/-- CKUPD (R104): refused with `Busy` while a packet is in progress. -/
def execCkupd (byte : Byte) (s : State) : Result :=
  if s.busy then .next (s.raise .busy) else .next (s.feed byte).ok

/-- CKRD (R105): allowed busy or idle. -/
def execCkrd (s : State) : Result := .next (s.respond .ok (pairData s.ckA s.ckB))

end Sys2Proof.Machine
end

