-- ==== Sys2Proof/Machine/Framer.lean ====
section
/-! DEFINITION. The framer's commands SETBAUD, CLRBAUD, START, PUSH (41_framer.md). -/

namespace Sys2Proof.Machine

/-- SETBAUD (R121): any 32-bit value, in any state. -/
def execSetbaud (word : Word) (s : State) : Result := .next (s.setBaud word true).ok

/-- CLRBAUD (R122): in any state. -/
def execClrbaud (s : State) : Result := .next (s.setBaud 0#32 false).ok

/-- The header of a packet: the pair cleared, the two signature bytes emitted and not fed, then the six
bytes of length and baud rate emitted and fed (R123). -/
def State.emitHeader (s : State) (n : Half) : State :=
  (headerFields n s.baud).foldl State.emitFeed
    (signature.foldl (fun t d => t.emit d false) (s.setPair (0#8, 0#8)))

/-- START (R123): the three tests in order, on the state before the command (R126), then the header, `REM`,
and the checksum at once when the payload is empty (R129). -/
def execStart (word : Word) (s : State) : Result :=
  if s.busy then .next (s.raise .busy)
  else if !s.baudValid then .next (s.raise .invalidConfiguration)
  else if lengthTooLarge word then .next (s.raise .payloadTooLarge)
  else .next ((s.emitHeader (lengthField word)).setRem (lengthField word)).finishIfDone.ok

/-- PUSH (R127): one payload byte, and the checksum after the last. -/
def execPush (byte : Byte) (s : State) : Result :=
  if s.busy then .next ((s.emitFeed byte).setRem (s.rem - 1#16)).finishIfDone.ok
  else .next (s.raise .sequence)

end Sys2Proof.Machine
end

