-- ==== Sys2Proof/Machine/System.lean ====
section
/-! DEFINITION. The system commands NOP, STRD, ERRCLR and the reserved opcodes (42_system.md). -/

namespace Sys2Proof.Machine

/-- NOP (R150). -/
def execNop (s : State) : Result := .next s.ok

/-- STRD (R152): the status word, no state changed. -/
def execStrd (s : State) : Result := .next (s.respond .ok s.status)

/-- ERRCLR (R153). -/
def execErrclr (s : State) : Result := .next s.clearFlags.ok

/-- A word with a must-be-0 bit set (R154). -/
def execIllegalWord (_why : IllegalWord) (s : State) : Result := .next s.raiseIllegal

/-- Opcode 0xA (R154): any operand bits. -/
def execReservedA (_arg : Word) (s : State) : Result := .next s.raiseIllegal

/-- Opcode 0xB (R154): any operand bits. -/
def execReservedB (_arg : Word) (s : State) : Result := .next s.raiseIllegal

/-- Opcode 0xC (R154): any operand bits. -/
def execReservedC (_arg : Word) (s : State) : Result := .next s.raiseIllegal

/-- Opcode 0xD (R154): any operand bits. -/
def execReservedD (_arg : Word) (s : State) : Result := .next s.raiseIllegal

/-- Opcode 0xE (R154): any operand bits. -/
def execReservedE (_arg : Word) (s : State) : Result := .next s.raiseIllegal

/-- Opcode 0xF (R154): any operand bits. -/
def execReservedF (_arg : Word) (s : State) : Result := .next s.raiseIllegal

end Sys2Proof.Machine
end

