-- ==== Sys2Proof/Machine/Dispatch.lean ====
section
/-! DEFINITION. Which meaning each instruction has: one arm per constructor of Instr. -/

namespace Sys2Proof.Machine

/-- The effect of one command on the state (R78). -/
def exec (i : Instr) (s : State) : Host.Outcome State Fault Refusal :=
  match i with
  | .nop => Sys2Proof.Machine.execNop s
  | .ckclr => Sys2Proof.Machine.execCkclr s
  | .ckupd byte => Sys2Proof.Machine.execCkupd byte s
  | .ckrd => Sys2Proof.Machine.execCkrd s
  | .setbaud word => Sys2Proof.Machine.execSetbaud word s
  | .clrbaud => Sys2Proof.Machine.execClrbaud s
  | .start word => Sys2Proof.Machine.execStart word s
  | .push byte => Sys2Proof.Machine.execPush byte s
  | .strd => Sys2Proof.Machine.execStrd s
  | .errclr => Sys2Proof.Machine.execErrclr s
  | .reservedA arg => Sys2Proof.Machine.execReservedA arg s
  | .reservedB arg => Sys2Proof.Machine.execReservedB arg s
  | .reservedC arg => Sys2Proof.Machine.execReservedC arg s
  | .reservedD arg => Sys2Proof.Machine.execReservedD arg s
  | .reservedE arg => Sys2Proof.Machine.execReservedE arg s
  | .reservedF arg => Sys2Proof.Machine.execReservedF arg s

end Sys2Proof.Machine
end

