-- ==== Sys2Proof/Machine/Step.lean ====
section
/-! DEFINITION. One step of the block: it takes the next event the host presents, if there is one (R57). -/

namespace Sys2Proof.Machine

/-- A command presented: a word that decodes runs its instruction, any other fails with `IllegalCommand`
(R80, R154). -/
def execWord (w : CmdWord) (s : State) : Result :=
  match decode w with
  | .instr i => exec i s
  | .illegal why => execIllegalWord why s

/-- The block has no step of its own: with nothing presented it holds (R178, R202). -/
def step (s : State) : Host.Outcome State Fault Refusal :=
  match s.nextEvent with
  | none => .next s.hold
  | some (.reset, t) => .next t.takeReset
  | some (.command w, t) => execWord w t

/-- `s` with the table's word presented as the very next command (log 4). -/
def State.withFetchWord (s : State) (nbits w : Nat) : State := s.present (tableWord nbits w)

end Sys2Proof.Machine
end

