-- ==== Sys2Proof/Config.lean ====
section
/-! DEFINITION. What an implementation fixes: the spec leaves nothing open.

R9: "The spec leaves no numeric parameter open: a model takes no size argument".
93_implementation_defined.md section 2: "Nothing in the block is `any value`: every register has a stated
reset value and every command a stated result, so a model needs no draws and no oracle".
So this file holds no free value. It holds the fixed sizes of R8 that statements speak of by name. -/

namespace Sys2Proof.Config

/-- The largest payload in bytes: "must fit in 16 bits" (R8). -/
def payloadMax : Nat := 65535

/-- Bytes of a packet before the payload: signature 2, payload_length 2, baudrate 4 (R70). -/
def headerBytes : Nat := 8

/-- Bytes of a packet besides the payload: the header and the two checksum bytes (R76: `10 + N`). -/
def overheadBytes : Nat := 10

end Sys2Proof.Config
end

