-- ==== Sys2Proof/Machine/Macros.lean ====
section
/-! DEFINITION. Sequences of commands (R57) and the two macros of R84. -/

namespace Sys2Proof.Machine

/-- The commands of a sequence one after the other, each wholly before the next (R57): "the fold of the step
function over the sequence". -/
def execAll : List Instr → State → Result
  | [], s => .next s
  | i :: is, s =>
    match exec i s with
    | .next t => execAll is t
    | .fault r => .fault r
    | .refused r => .refused r

/-- The macro `ENCODE b, [p0, ..., p(N-1)]` (R84). -/
def encodeMacro (b : Word) (p : List Byte) : List Instr :=
  .setbaud b :: .start (BitVec.ofNat 32 p.length) :: p.map .push

/-- The macro `CHECKSUM [d0, ..., d(n-1)]` (R84). -/
def checksumMacro (d : List Byte) : List Instr := .ckclr :: (d.map .ckupd ++ [.ckrd])

end Sys2Proof.Machine
end

