-- ==== Sys2Proof/Machine/Packet.lean ====
section
/-! DEFINITION. The packet (R70) and the function `encode` (R120) that the framer performs a byte at a time. -/

namespace Sys2Proof.Machine

/-- The bytes the checksum covers: payload_length, baudrate, payload, in that order (R75). -/
def packetBody (payload : List Byte) (b : Word) : List Byte :=
  headerFields (BitVec.ofNat 16 payload.length) b ++ payload

/-- The packet of R70 and R120: signature, body, `ck_a`, `ck_b`. -/
def packet (payload : List Byte) (b : Word) : List Byte :=
  signature ++ packetBody payload b ++
    [(fletcher8 (packetBody payload b)).1, (fletcher8 (packetBody payload b)).2]

/-- `encode` of R120. The baud rate is `none` where it is "unresolved" or "non-numeric"; that failure is
reported before the payload's (R166). -/
def encodePacket (payload : List Byte) (baudrate : Option Word) : Except ErrCode (List Byte) :=
  match baudrate with
  | none => .error .invalidConfiguration
  | some b =>
    if b = 0#32 then .error .invalidConfiguration
    else if 65535 < payload.length then .error .payloadTooLarge
    else .ok (packet payload b)

end Sys2Proof.Machine
end

