-- ==== Sys2Proof/Machine/Stream.lean ====
section
/-! DEFINITION. From the output history to datagrams (R60): what the sink sends. -/

namespace Sys2Proof.Machine

/-- The `Rst`-free pieces of a history that follows the beats `acc` of the piece being read. -/
def segmentsFrom (acc : List Beat) : List OutElem → List (List Beat)
  | [] => [acc]
  | .rst :: o => acc :: segmentsFrom [] o
  | .beat b :: o => segmentsFrom (acc ++ [b]) o

/-- `segments(OUT)` of R60: the maximal `Rst`-free pieces, in order; one more than there are `Rst`. -/
def segments (o : List OutElem) : List (List Beat) := segmentsFrom [] o

/-- `runs(s)` of R60 with its tail, for a piece that follows the beats `acc` of the run being read. -/
def runsFrom (acc : List Beat) : List Beat → List (List Beat) × List Beat
  | [] => ([], acc)
  | b :: s =>
    if b.last then ((acc ++ [b]) :: (runsFrom [] s).1, (runsFrom [] s).2) else runsFrom (acc ++ [b]) s

/-- `runs(s)` of R60: the piece cut after every beat whose last flag is 1, and the tail left over. -/
def runs (s : List Beat) : List (List Beat) × List Beat := runsFrom [] s

/-- The data bytes of some beats. -/
def dataOf (bs : List Beat) : List Byte := bs.map Beat.data

/-- `datagrams(OUT)` of R60: the data bytes of every run of every segment, in order. -/
def datagrams (o : List OutElem) : List (List Byte) :=
  (segments o).flatMap fun s => (runs s).1.map dataOf

/-- The last segment of a history: the beats after its last `Rst`, or all of them if it has none. -/
def lastSegment (o : List OutElem) : List Beat := (segments o).getLastD []

/-- `in_progress(OUT)` of R60: the data bytes of the tail of the last segment. -/
def inProgress (o : List OutElem) : List Byte := dataOf (runs (lastSegment o)).2

/-- The beats that carry a packet: last flag 1 on the final byte and 0 on every other (R82). -/
def packetBeats : List Byte → List OutElem
  | [] => []
  | [d] => [.beat ⟨d, true⟩]
  | d :: e :: ds => .beat ⟨d, false⟩ :: packetBeats (e :: ds)

end Sys2Proof.Machine
end

