-- ==== Sys2Proof/Safety.lean ====
section
/-! DEFINITION. The terms statements use about runs: reachable states, a good end, the invariants of the
output history, which bytes a checksum covers, and which commands may stand between others. -/

namespace Sys2Proof.Machine

/-- The states of R31's "any sequence of commands": from power-on, by steps, while the host presents
commands and resets as it likes, at any time and in answer to anything it has seen. -/
inductive Reachable : State → Prop where
  | reset : Reachable State.reset
  | present (e : HostEvent) {s : State} : Reachable s → Reachable { s with input := s.input ++ [e] }
  | step {s t : State} : Reachable s → step s = .next t → Reachable t

/-- A run has ended well when the block is idle (R202). -/
def State.endedWell (s : State) : Bool := !s.busy

/-- A datagram is good when it is `encode` of some payload and baud rate (R120): anything else would be the
source's "malformed packet". -/
def GoodDatagram (d : List Byte) : Prop :=
  ∃ (p : List Byte) (b : Word), encodePacket p (some b) = .ok d

/-- R31 (b): the beats end with an unterminated run of at least 8 beats. -/
def OpenRun (s : List Beat) : Prop :=
  ∃ pre run : List Beat, s = pre ++ run ∧ 8 ≤ run.length ∧ (∀ b ∈ run, b.last = false) ∧
    (pre = [] ∨ pre.getLast?.map Beat.last = some true)

/-- R31 (c): there are no beats, or the final one has last flag 1. -/
def ClosedRun (s : List Beat) : Prop := s = [] ∨ s.getLast?.map Beat.last = some true

/-- R31 (b) and (c). -/
def State.OutShape (s : State) : Prop :=
  (s.busy = true → OpenRun (lastSegment s.out)) ∧ (s.busy = false → ClosedRun (lastSegment s.out))

/-- What the history holds: every datagram in it is good; idle, nothing is in progress; busy, the bytes in
progress are the signature, the fields of a length and a non-zero baud rate, and the payload so far, of which
`rem` bytes are still to come, and the pair is the checksum of the bytes after the signature (R25, R132,
R105's "running sums over the bytes at offsets 2 onward emitted so far"). -/
def State.StreamInv (s : State) : Prop :=
  (∀ d ∈ datagrams s.out, GoodDatagram d) ∧
  (s.busy = false → inProgress s.out = []) ∧
  (s.busy = true → ∃ (n : Half) (b : Word) (p : List Byte),
    b ≠ 0#32 ∧ p.length + s.rem.toNat = n.toNat ∧
    inProgress s.out = signature ++ headerFields n b ++ p ∧
    (s.ckA, s.ckB) = fletcher8 (headerFields n b ++ p))

/-- The bytes fed to the pair since the most recent clear, after a command, from those before it (R107): a
clear empties them, and START's own clear is followed by its six fields. -/
def fedAfter (i : Instr) (s : State) (fed : List Byte) : List Byte :=
  match i with
  | .ckclr => if s.busy then fed else []
  | .ckupd x => if s.busy then fed else fed ++ [x]
  | .start n =>
    if s.busy = false ∧ s.baudValid = true ∧ n.toNat ≤ Config.payloadMax then
      headerFields (lengthField n) s.baud
    else fed
  | .push x => if s.busy then fed ++ [x] else fed
  | .nop | .ckrd | .setbaud _ | .clrbaud | .strd | .errclr => fed
  | .reservedA _ | .reservedB _ | .reservedC _ | .reservedD _ | .reservedE _ | .reservedF _ => fed

/-- The commands that touch neither the pair, nor `REM`, nor the baud setting: R130 lets them stand anywhere
among the commands of a packet. -/
def inspects : Instr → Bool
  | .nop | .ckrd | .strd | .errclr => true
  | .ckclr | .ckupd _ | .setbaud _ | .clrbaud | .start _ | .push _ => false
  | .reservedA _ | .reservedB _ | .reservedC _ | .reservedD _ | .reservedE _ | .reservedF _ => false

/-- SETBAUD and CLRBAUD. -/
def setsBaud : Instr → Bool
  | .setbaud _ | .clrbaud => true
  | .nop | .ckclr | .ckupd _ | .ckrd | .start _ | .push _ | .strd | .errclr => false
  | .reservedA _ | .reservedB _ | .reservedC _ | .reservedD _ | .reservedE _ | .reservedF _ => false

/-- The byte a PUSH carries. -/
def pushByte : Instr → Option Byte
  | .push x => some x
  | _ => none

/-- The byte a CKUPD carries. -/
def ckupdByte : Instr → Option Byte
  | .ckupd x => some x
  | _ => none

/-- All of some commands answered `OK`: the responses from `s` to `t` number `n` and each has code 0. -/
def AllOk (n : Nat) (s t : State) : Prop :=
  ∃ rs : List Response, t.responses = s.responses ++ rs ∧ rs.length = n ∧ ∀ r ∈ rs, r.code = .ok

end Sys2Proof.Machine
end

