-- ==== Sys2Proof/Certificates/Slice0/Obligations.lean ====
section
/-! DEFINITION. The statements for the provers.

How to read them. A command's response is recorded at the end of `responses` (log 2), and the command words
and resets the host presents stand in `input`, the next one first (log 1): these two fields are the model's
record of the spec's command and response ports (R50), not registers of the block. An equation
`exec i s = .next { s with ... }` gives the whole next state, so it is the command's frame too: every field it
does not name is unchanged. The block has no addressable memory (R50), so no statement speaks of one. Where a
statement says that a packet is sent, it says which beats stand in `OUT` and which datagrams they make; that
the sink takes every beat eventually is R200's assumption on the sink (log 6). -/

open Sys2Proof Sys2Proof.Machine

/-! ### Reset -/

/-- R34: the value of every register after power-on and after a later reset, and `CKRD` straight after
reset. -/
def Obligations.ResetLeavesTheStatedValues : Prop :=
  (State.reset.ckA = 0#8 ∧ State.reset.ckB = 0#8 ∧ State.reset.rem = 0#16 ∧ State.reset.baud = 0#32 ∧
    State.reset.baudKnown = false ∧ State.reset.err = 0b00000#5 ∧ State.reset.out = []) ∧
  (∀ (s : State) (rest : List HostEvent), s.input = .reset :: rest →
    ∃ t : State, step s = .next t ∧ t.ckA = 0#8 ∧ t.ckB = 0#8 ∧ t.rem = 0#16 ∧ t.baud = 0#32 ∧
      t.baudKnown = false ∧ t.err = 0b00000#5 ∧ t.out = s.out ++ [.rst]) ∧
  (∃ t : State, exec .ckrd State.reset = .next t ∧ t.responses.getLast? = some ⟨.ok, 0#32⟩)

/-- R191: a reset after power-on appends `Rst`, busy or idle, removes nothing, and is never part of a
datagram. The last two clauses are the model's choice: the step takes the event off its port field (log 1), and
a reset gets no response (log 12, DEDUCED from R190 and program P5). -/
def Obligations.ResetAppendsOneMarker : Prop :=
  ∀ (s : State) (rest : List HostEvent), s.input = .reset :: rest →
    ∃ t : State, step s = .next t ∧ t.out = s.out ++ [.rst] ∧ datagrams t.out = datagrams s.out ∧
      t.input = rest ∧ t.responses = s.responses

/-! ### The checksum function -/

/-- R100: both additions modulo 256, the second with the new first sum. -/
def Obligations.ChecksumStepAddsModulo256 : Prop :=
  ∀ a b x : Byte,
    (ckStep (a, b) x).1.toNat = (a.toNat + x.toNat) % 256 ∧
    (ckStep (a, b) x).2.toNat = (b.toNat + (a.toNat + x.toNat) % 256) % 256

/-- R101: the fold of `ck_step` from the left, starting at `(0, 0)`, on sequences of every length. -/
def Obligations.Fletcher8FoldsFromZero : Prop :=
  fletcher8 [] = (0#8, 0#8) ∧
  (∀ (s : List Byte) (x : Byte), fletcher8 (s ++ [x]) = ckStep (fletcher8 s) x) ∧
  (∀ s : List Byte, (fletcher8 s).1.toNat ≤ 255 ∧ (fletcher8 s).2.toNat ≤ 255)

/-- R102: the closed form, and the consequences the rule lists. -/
def Obligations.Fletcher8ClosedForm : Prop :=
  (∀ d : List Byte,
    (fletcher8 d).1.toNat = (d.map BitVec.toNat).sum % 256 ∧
    (fletcher8 d).2.toNat = (∑ i : Fin d.length, (d.length - i.val) * (d.get i).toNat) % 256) ∧
  (∀ d e : List Byte, d.Perm e → (fletcher8 d).1 = (fletcher8 e).1) ∧
  (∃ d e : List Byte, d.Perm e ∧ (fletcher8 d).2 ≠ (fletcher8 e).2) ∧
  (∀ d : List Byte, (fletcher8 (d ++ [0#8])).1 = (fletcher8 d).1 ∧
    (fletcher8 (d ++ [0#8])).2 = (fletcher8 d).2 + (fletcher8 d).1) ∧
  (∀ d : List Byte, fletcher8 (0#8 :: d) = fletcher8 d) ∧
  (∀ v : Byte, (fletcher8 (List.replicate 256 v)).1 = 0#8 ∧
    (fletcher8 (List.replicate 256 v)).2.toNat = (v.toNat * 128) % 256)

/-! ### The ten commands, one statement each -/

/-- R150: NOP answers `OK` and changes nothing, busy or idle; with an operand bit set it is illegal. -/
def Obligations.NopAnswersAndChangesNothing : Prop :=
  (∀ s : State, exec .nop s = .next { s with responses := s.responses ++ [⟨.ok, 0#32⟩] }) ∧
  (∀ (s : State) (arg : Word) (rest : List HostEvent), s.input = .command (0x0#4 ++ arg) :: rest →
    (arg = 0#32 → step s = exec .nop { s with input := rest }) ∧
    (arg ≠ 0#32 → step s = .next { s with
      input := rest, err := s.err ||| 0b10000#5,
      responses := s.responses ++ [⟨.err .illegalCommand, 0#32⟩] }))

/-- R103: CKCLR clears the pair, or fails with `Busy`; with an operand bit set it is illegal. -/
def Obligations.CkclrClearsThePairUnlessBusy : Prop :=
  (∀ s : State, s.rem = 0#16 →
    exec .ckclr s = .next { s with
      ckA := 0#8, ckB := 0#8, responses := s.responses ++ [⟨.ok, 0#32⟩] }) ∧
  (∀ s : State, s.rem ≠ 0#16 →
    exec .ckclr s = .next { s with
      err := s.err ||| 0b00100#5, responses := s.responses ++ [⟨.err .busy, 0#32⟩] }) ∧
  (∀ (s : State) (arg : Word) (rest : List HostEvent), s.input = .command (0x1#4 ++ arg) :: rest →
    (arg = 0#32 → step s = exec .ckclr { s with input := rest }) ∧
    (arg ≠ 0#32 → step s = .next { s with
      input := rest, err := s.err ||| 0b10000#5,
      responses := s.responses ++ [⟨.err .illegalCommand, 0#32⟩] }))

/-- R104: CKUPD feeds its byte, or fails with `Busy`; with a bit of `arg[31:8]` set it is illegal. -/
def Obligations.CkupdFeedsOneByteUnlessBusy : Prop :=
  (∀ (s : State) (x : Byte), s.rem = 0#16 →
    exec (.ckupd x) s = .next { s with
      ckA := s.ckA + x, ckB := s.ckB + (s.ckA + x), responses := s.responses ++ [⟨.ok, 0#32⟩] }) ∧
  (∀ (s : State) (x : Byte), s.rem ≠ 0#16 →
    exec (.ckupd x) s = .next { s with
      err := s.err ||| 0b00100#5, responses := s.responses ++ [⟨.err .busy, 0#32⟩] }) ∧
  (∀ (s : State) (arg : Word) (rest : List HostEvent), s.input = .command (0x2#4 ++ arg) :: rest →
    (arg.toNat < 256 → step s = exec (.ckupd (BitVec.ofNat 8 arg.toNat)) { s with input := rest }) ∧
    (256 ≤ arg.toNat → step s = .next { s with
      input := rest, err := s.err ||| 0b10000#5,
      responses := s.responses ++ [⟨.err .illegalCommand, 0#32⟩] }))

/-- R105: CKRD returns the pair, `CK_A` in data[7:0] and `CK_B` in data[15:8], busy or idle, and changes
nothing; in mid-packet that is the checksum of the bytes emitted so far from offset 2 on; with an operand bit
set it is illegal. -/
def Obligations.CkrdReturnsThePair : Prop :=
  (∀ s : State, exec .ckrd s = .next { s with
      responses := s.responses ++ [⟨.ok, BitVec.ofNat 32 (s.ckA.toNat + 256 * s.ckB.toNat)⟩] }) ∧
  (∀ s : State, Reachable s → s.rem ≠ 0#16 → (s.ckA, s.ckB) = fletcher8 ((inProgress s.out).drop 2)) ∧
  (∀ (s : State) (arg : Word) (rest : List HostEvent), s.input = .command (0x3#4 ++ arg) :: rest →
    (arg = 0#32 → step s = exec .ckrd { s with input := rest }) ∧
    (arg ≠ 0#32 → step s = .next { s with
      input := rest, err := s.err ||| 0b10000#5,
      responses := s.responses ++ [⟨.err .illegalCommand, 0#32⟩] }))

/-- R121: SETBAUD stores any 32-bit value and marks it known, in every state, and cannot fail. -/
def Obligations.SetbaudStoresAnyValue : Prop :=
  (∀ (s : State) (v : Word), exec (.setbaud v) s = .next { s with
      baud := v, baudKnown := true, responses := s.responses ++ [⟨.ok, 0#32⟩] }) ∧
  (∀ (s : State) (arg : Word) (rest : List HostEvent), s.input = .command (0x4#4 ++ arg) :: rest →
    step s = exec (.setbaud arg) { s with input := rest })

/-- R122: CLRBAUD clears the baud rate and marks it unresolved, in every state; with an operand bit set it is
illegal. -/
def Obligations.ClrbaudMarksTheRateUnresolved : Prop :=
  (∀ s : State, exec .clrbaud s = .next { s with
      baud := 0#32, baudKnown := false, responses := s.responses ++ [⟨.ok, 0#32⟩] }) ∧
  (∀ (s : State) (arg : Word) (rest : List HostEvent), s.input = .command (0x5#4 ++ arg) :: rest →
    (arg = 0#32 → step s = exec .clrbaud { s with input := rest }) ∧
    (arg ≠ 0#32 → step s = .next { s with
      input := rest, err := s.err ||| 0b10000#5,
      responses := s.responses ++ [⟨.err .illegalCommand, 0#32⟩] }))

/-- R123 to R126: START makes its three tests in order, on the state before the command; a START that fails
sets one flag and changes nothing else; one that succeeds emits the signature and the six fields, leaves the
pair at their checksum, loads `REM` with the whole operand, and for length 0 emits the checksum too. -/
def Obligations.StartChecksThenEmitsTheHeader : Prop :=
  (∀ (s : State) (n : Word), s.rem ≠ 0#16 →
    exec (.start n) s = .next { s with
      err := s.err ||| 0b00100#5, responses := s.responses ++ [⟨.err .busy, 0#32⟩] }) ∧
  (∀ (s : State) (n : Word), s.rem = 0#16 → (s.baudKnown = false ∨ s.baud = 0#32) →
    exec (.start n) s = .next { s with
      err := s.err ||| 0b00001#5, responses := s.responses ++ [⟨.err .invalidConfiguration, 0#32⟩] }) ∧
  (∀ (s : State) (n : Word), s.rem = 0#16 → s.baudKnown = true → s.baud ≠ 0#32 → 65535 < n.toNat →
    exec (.start n) s = .next { s with
      err := s.err ||| 0b00010#5, responses := s.responses ++ [⟨.err .payloadTooLarge, 0#32⟩] }) ∧
  (∀ (s : State) (n : Word), s.rem = 0#16 → s.baudKnown = true → s.baud ≠ 0#32 → n.toNat ≤ 65535 →
    ∃ f : List Byte,
      f = [n.extractLsb' 0 8, n.extractLsb' 8 8, s.baud.extractLsb' 0 8, s.baud.extractLsb' 8 8,
           s.baud.extractLsb' 16 8, s.baud.extractLsb' 24 8] ∧
      (n ≠ 0#32 → exec (.start n) s = .next { s with
        ckA := (fletcher8 f).1, ckB := (fletcher8 f).2, rem := BitVec.ofNat 16 n.toNat,
        out := s.out ++ (0xB5#8 :: 0x62#8 :: f).map fun d => .beat ⟨d, false⟩,
        responses := s.responses ++ [⟨.ok, 0#32⟩] }) ∧
      (n = 0#32 → exec (.start n) s = .next { s with
        ckA := (fletcher8 f).1, ckB := (fletcher8 f).2, rem := 0#16,
        out := s.out ++ (0xB5#8 :: 0x62#8 :: f).map (fun d => .beat ⟨d, false⟩) ++
          [.beat ⟨(fletcher8 f).1, false⟩, .beat ⟨(fletcher8 f).2, true⟩],
        responses := s.responses ++ [⟨.ok, 0#32⟩] })) ∧
  (∀ (s : State) (arg : Word) (rest : List HostEvent), s.input = .command (0x6#4 ++ arg) :: rest →
    step s = exec (.start arg) { s with input := rest })

/-- R129: START 0 with a valid baud rate emits the complete 10-byte packet, the last beat with last flag 1,
and leaves the block idle; at 9600 it is `B5 62 00 00 80 25 00 00 A5 6F`. -/
def Obligations.StartZeroEmitsTheWholePacket : Prop :=
  (∀ s : State, s.rem = 0#16 → s.baudKnown = true → s.baud ≠ 0#32 →
    ∃ (t : State) (ca cb : Byte),
      exec (.start 0#32) s = .next t ∧ t.rem = 0#16 ∧
      (ca, cb) = fletcher8 (0x00#8 :: 0x00#8 :: le32 s.baud) ∧
      t.out = s.out ++ (0xB5#8 :: 0x62#8 :: 0x00#8 :: 0x00#8 :: le32 s.baud).map
          (fun d => OutElem.beat ⟨d, false⟩) ++ [.beat ⟨ca, false⟩, .beat ⟨cb, true⟩]) ∧
  encodePacket [] (some 9600#32) =
    .ok [0xB5#8, 0x62#8, 0x00#8, 0x00#8, 0x80#8, 0x25#8, 0x00#8, 0x00#8, 0xA5#8, 0x6F#8]

/-- R127: PUSH emits its byte unchanged, feeds it, and counts `REM` down; the last PUSH emits the checksum
too; idle it fails with `Sequence`; with a bit of `arg[31:8]` set it is illegal, busy or idle. -/
def Obligations.PushEmitsOnePayloadByte : Prop :=
  (∀ (s : State) (x : Byte), 2 ≤ s.rem.toNat →
    exec (.push x) s = .next { s with
      ckA := s.ckA + x, ckB := s.ckB + (s.ckA + x), rem := BitVec.ofNat 16 (s.rem.toNat - 1),
      out := s.out ++ [.beat ⟨x, false⟩], responses := s.responses ++ [⟨.ok, 0#32⟩] }) ∧
  (∀ (s : State) (x : Byte), s.rem.toNat = 1 →
    exec (.push x) s = .next { s with
      ckA := s.ckA + x, ckB := s.ckB + (s.ckA + x), rem := 0#16,
      out := s.out ++ [.beat ⟨x, false⟩, .beat ⟨s.ckA + x, false⟩, .beat ⟨s.ckB + (s.ckA + x), true⟩],
      responses := s.responses ++ [⟨.ok, 0#32⟩] }) ∧
  (∀ (s : State) (x : Byte), s.rem.toNat = 0 →
    exec (.push x) s = .next { s with
      err := s.err ||| 0b01000#5, responses := s.responses ++ [⟨.err .sequence, 0#32⟩] }) ∧
  (∀ (s : State) (arg : Word) (rest : List HostEvent), s.input = .command (0x7#4 ++ arg) :: rest →
    (arg.toNat < 256 → step s = exec (.push (BitVec.ofNat 8 arg.toNat)) { s with input := rest }) ∧
    (256 ≤ arg.toNat → step s = .next { s with
      input := rest, err := s.err ||| 0b10000#5,
      responses := s.responses ++ [⟨.err .illegalCommand, 0#32⟩] }))

/-- R28: the fields of the status word, in every state. -/
def Obligations.StatusWordFields : Prop :=
  ∀ s : State,
    s.status.extractLsb' 0 16 = s.rem ∧
    (s.status.getLsbD 16 = true ↔ s.rem ≠ 0#16) ∧
    s.status.getLsbD 17 = s.baudKnown ∧
    s.status.extractLsb' 18 6 = 0#6 ∧
    s.status.extractLsb' 24 5 = s.err ∧
    s.status.extractLsb' 29 3 = 0#3

/-- R152: STRD returns the status word and changes nothing, busy or idle; with an operand bit set it is
illegal. The data is written out as the number its fields make. -/
def Obligations.StrdReturnsTheStatusWord : Prop :=
  (∀ s : State, exec .strd s = .next { s with
      responses := s.responses ++ [⟨.ok, BitVec.ofNat 32 (s.rem.toNat
        + 2 ^ 16 * (if s.rem = 0#16 then 0 else 1) + 2 ^ 17 * (if s.baudKnown then 1 else 0)
        + 2 ^ 24 * s.err.toNat)⟩] }) ∧
  (∀ (s : State) (arg : Word) (rest : List HostEvent), s.input = .command (0x8#4 ++ arg) :: rest →
    (arg = 0#32 → step s = exec .strd { s with input := rest }) ∧
    (arg ≠ 0#32 → step s = .next { s with
      input := rest, err := s.err ||| 0b10000#5,
      responses := s.responses ++ [⟨.err .illegalCommand, 0#32⟩] }))

/-- R153: ERRCLR clears all five flags at once and touches nothing else; with an operand bit set it is
illegal, clears nothing and sets `ERR.ILL`. -/
def Obligations.ErrclrClearsAllFlags : Prop :=
  (∀ s : State, exec .errclr s = .next { s with
      err := 0b00000#5, responses := s.responses ++ [⟨.ok, 0#32⟩] }) ∧
  (∀ (s : State) (arg : Word) (rest : List HostEvent), s.input = .command (0x9#4 ++ arg) :: rest →
    (arg = 0#32 → step s = exec .errclr { s with input := rest }) ∧
    (arg ≠ 0#32 → step s = .next { s with
      input := rest, err := s.err ||| 0b10000#5,
      responses := s.responses ++ [⟨.err .illegalCommand, 0#32⟩] }))

/-! ### Illegal words and failures -/

/-- The six reserved opcodes, each with any operand bits and in every state: the instruction's own effect is
the failure of R154. -/
def Obligations.ReservedOpcodesFail : Prop :=
  ∀ (s : State) (a : Word) (i : Instr),
    (i = .reservedA a ∨ i = .reservedB a ∨ i = .reservedC a ∨ i = .reservedD a ∨ i = .reservedE a ∨
      i = .reservedF a) →
    exec i s = .next { s with
      err := s.err ||| 0b10000#5, responses := s.responses ++ [⟨.err .illegalCommand, 0#32⟩] }

/-- R154: every word that R80 calls illegal sets `ERR.ILL`, answers `IllegalCommand` with data 0, and does
nothing else, busy or idle. The word is read as a number: opcode above `2^32`, operand below. -/
def Obligations.IllegalWordsSetIllAndNothingElse : Prop :=
  ∀ (s : State) (w : CmdWord) (rest : List HostEvent), s.input = .command w :: rest →
    (10 ≤ w.toNat / 2 ^ 32 ∨
      (w.toNat / 2 ^ 32 ∈ [0, 1, 3, 5, 8, 9] ∧ w.toNat % 2 ^ 32 ≠ 0) ∨
      (w.toNat / 2 ^ 32 ∈ [2, 7] ∧ 256 ≤ w.toNat % 2 ^ 32)) →
    step s = .next { s with
      input := rest, err := s.err ||| 0b10000#5,
      responses := s.responses ++ [⟨.err .illegalCommand, 0#32⟩] }

/-- R162: the whole effect of a command that fails with code `c`: the flag `ERR[c - 1]` set, the code
answered with data 0, and nothing else changed. -/
def Obligations.FailedCommandSetsOneFlag : Prop :=
  ∀ (s t : State) (w : CmdWord) (rest : List HostEvent) (c : ErrCode) (d : Word),
    s.input = .command w :: rest → step s = .next t → t.responses = s.responses ++ [⟨.err c, d⟩] →
    d = 0#32 ∧
    t = { s with
      input := rest, err := s.err ||| BitVec.twoPow 5 ((RspCode.err c).number.toNat - 1),
      responses := s.responses ++ [⟨.err c, 0#32⟩] }

/-- R166, with the causes of R160: the one code each command word answers in each state, the first that
holds of `IllegalCommand`, `Busy` or `Sequence`, `InvalidConfiguration`, `PayloadTooLarge`. -/
def Obligations.FirstFailureInOrderIsReported : Prop :=
  ∀ (s : State) (w : CmdWord) (rest : List HostEvent) (opc arg : Nat), s.input = .command w :: rest →
    opc = w.toNat / 2 ^ 32 → arg = w.toNat % 2 ^ 32 →
    ∃ (t : State) (d : Word), step s = .next t ∧
      t.responses = s.responses ++
        [⟨if 10 ≤ opc ∨ (opc ∈ [0, 1, 3, 5, 8, 9] ∧ arg ≠ 0) ∨ (opc ∈ [2, 7] ∧ 256 ≤ arg) then
            .err .illegalCommand
          else if opc ∈ [1, 2, 6] ∧ s.rem ≠ 0#16 then .err .busy
          else if opc = 7 ∧ s.rem = 0#16 then .err .sequence
          else if opc = 6 ∧ ¬(s.baudKnown = true ∧ s.baud ≠ 0#32) then .err .invalidConfiguration
          else if opc = 6 ∧ 65535 < arg then .err .payloadTooLarge
          else .ok, d⟩]

/-- R27: a failure sets the flag of its code and keeps the others, a success other than ERRCLR keeps all
five, and no command's behaviour depends on `ERR`: runs from two states that differ only there agree on
everything but `ERR` and the data STRD returns. -/
def Obligations.FlagsAreStickyAndGateNothing : Prop :=
  (∀ (i : Instr) (s t : State) (r : Response), exec i s = .next t → t.responses = s.responses ++ [r] →
    (r.code = .ok → i ≠ .errclr → t.err = s.err) ∧
    (∀ c : ErrCode, r.code = .err c → ∀ k : Nat, k < 5 →
      (t.err.getLsbD k = true ↔ s.err.getLsbD k = true ∨ k + 1 = r.code.number.toNat))) ∧
  (∀ (is : List Instr) (s t : State) (e : BitVec 5), execAll is s = .next t →
    ∃ u : State, execAll is { s with err := e } = .next u ∧
      u.ckA = t.ckA ∧ u.ckB = t.ckB ∧ u.rem = t.rem ∧ u.baud = t.baud ∧ u.baudKnown = t.baudKnown ∧
      u.out = t.out ∧ u.responses.map Response.code = t.responses.map Response.code)

/-! ### All commands -/

/-- R151: the step is total. Every command word in every state gives a next state and exactly one response,
and appends 0, 8, 10, 1 or 3 elements to `OUT` as the rule says. -/
def Obligations.EveryCommandAnswersExactlyOnce : Prop :=
  ∀ (s : State) (w : CmdWord) (rest : List HostEvent), s.input = .command w :: rest →
    ∃ (t : State) (r : Response) (bs : List OutElem),
      step s = .next t ∧ t.input = rest ∧ t.responses = s.responses ++ [r] ∧ t.out = s.out ++ bs ∧
      bs.length =
        if r.code = .ok then
          match decode w with
          | .instr (.start n) => if n = 0#32 then 10 else 8
          | .instr (.push _) => if s.rem = 1#16 then 3 else 1
          | _ => 0
        else 0

/-- R81: the response word holds the code in bits 35:32 and the data in bits 31:0; the data is the pair for
CKRD, the status word for STRD, and 0 for every other command and every failure. -/
def Obligations.ResponseWordCarriesCodeAndData : Prop :=
  (∀ r : Response, r.word.toNat = r.code.number.toNat * 2 ^ 32 + r.data.toNat) ∧
  (∀ c : RspCode, c.number.toNat ≤ 5) ∧
  (∀ (s : State) (w : CmdWord) (rest : List HostEvent), s.input = .command w :: rest →
    ∃ (t : State) (r : Response), step s = .next t ∧ t.responses = s.responses ++ [r] ∧
      r.data =
        if r.code ≠ .ok then 0#32
        else if decode w = .instr .ckrd then (s.ckB ++ s.ckA : BitVec 16).setWidth 32
        else if decode w = .instr .strd then s.status
        else 0#32)

/-- R82: a beat's data is in bits 7:0 and its last flag in bit 8; a packet of `10 + N` bytes is `9 + N`
beats with flag 0 followed by one with flag 1. -/
def Obligations.BeatsCarryTheLastFlag : Prop :=
  (∀ b : Beat, b.word.extractLsb' 0 8 = b.data ∧ b.word.getLsbD 8 = b.last) ∧
  (∀ (p : List Byte) (b : Word) (d : List Byte), encodePacket p (some b) = .ok d →
    ∃ (q : List Byte) (e : Byte), d = q ++ [e] ∧ q.length = 9 + p.length ∧
      packetBeats d = q.map (fun x => OutElem.beat ⟨x, false⟩) ++ [.beat ⟨e, true⟩])

/-- R32: the access matrix. Each register is written only by the commands the matrix lists; and a command
not listed as a reader of a register gives, from a state that differs only in that register, a next state
that differs only in that register. -/
def Obligations.CommandsKeepToTheAccessMatrix : Prop :=
  ∀ (i : Instr) (s : State), ∃ t : State, exec i s = .next t ∧
    t.input = s.input ∧
    ((t.ckA, t.ckB) ≠ (s.ckA, s.ckB) →
      i = .ckclr ∨ (∃ x, i = .ckupd x) ∨ (∃ n, i = .start n) ∨ ∃ x, i = .push x) ∧
    (t.rem ≠ s.rem → (∃ n, i = .start n) ∨ ∃ x, i = .push x) ∧
    ((t.baud, t.baudKnown) ≠ (s.baud, s.baudKnown) → (∃ v, i = .setbaud v) ∨ i = .clrbaud) ∧
    (t.err ≠ s.err → i = .errclr ∨ ∃ c, t.responses = s.responses ++ [⟨.err c, 0#32⟩]) ∧
    (t.out ≠ s.out → (∃ n, i = .start n) ∨ ∃ x, i = .push x) ∧
    ((∀ x, i ≠ .ckupd x) → i ≠ .ckrd → (∀ x, i ≠ .push x) → ∀ a b : Byte, ∃ a' b' : Byte,
      exec i { s with ckA := a, ckB := b } = .next { t with ckA := a', ckB := b' }) ∧
    (i ≠ .ckclr → (∀ x, i ≠ .ckupd x) → (∀ n, i ≠ .start n) → (∀ x, i ≠ .push x) → i ≠ .strd →
      ∀ r : Half, ∃ r' : Half, exec i { s with rem := r } = .next { t with rem := r' }) ∧
    ((∀ n, i ≠ .start n) → ∀ v : Word, ∃ v' : Word,
      exec i { s with baud := v } = .next { t with baud := v' }) ∧
    ((∀ n, i ≠ .start n) → i ≠ .strd → ∀ k : Bool, ∃ k' : Bool,
      exec i { s with baudKnown := k } = .next { t with baudKnown := k' }) ∧
    (i ≠ .strd → ∀ e : BitVec 5, ∃ e' : BitVec 5,
      exec i { s with err := e } = .next { t with err := e' }) ∧
    (∀ o : List OutElem, ∃ o' : List OutElem,
      exec i { s with out := o } = .next { t with out := o' })

/-- R137, with R24: `REM` leaves 0 only by a START of a non-zero length, which loads that length; it moves
while busy only by a PUSH, which takes 1 off it; a failed command never changes the phase; and no step moves
`REM` while busy but a PUSH's and a reset's. -/
def Obligations.OnlyStartAndPushMoveRem : Prop :=
  (∀ (i : Instr) (s t : State), exec i s = .next t →
    (s.rem = 0#16 → t.rem ≠ 0#16 → ∃ n : Word, i = .start n ∧ n ≠ 0#32 ∧ t.rem.toNat = n.toNat) ∧
    (s.rem ≠ 0#16 → t.rem ≠ s.rem → ∃ x : Byte, i = .push x ∧ t.rem.toNat = s.rem.toNat - 1) ∧
    ((∃ c d, t.responses.getLast? = some ⟨.err c, d⟩) → t.rem = s.rem)) ∧
  (∀ s t : State, s.rem ≠ 0#16 → step s = .next t → t.rem ≠ s.rem →
    (∃ rest, s.input = .reset :: rest ∧ t.rem = 0#16) ∨
    (∃ (w : CmdWord) (rest : List HostEvent) (x : Byte), s.input = .command w :: rest ∧
      decode w = .instr (.push x) ∧ t.rem.toNat = s.rem.toNat - 1))

/-! ### Byte order, encoding and decoding -/

/-- R51 and R52: `le16` and `le32` are the bytes of the number, the lowest first; the examples of the rules;
and the two fields of a packet they make. -/
def Obligations.LittleEndianFields : Prop :=
  (∀ v : Half, le16 v = [BitVec.ofNat 8 v.toNat, BitVec.ofNat 8 (v.toNat / 2 ^ 8)]) ∧
  (∀ v : Word, le32 v = [BitVec.ofNat 8 v.toNat, BitVec.ofNat 8 (v.toNat / 2 ^ 8),
    BitVec.ofNat 8 (v.toNat / 2 ^ 16), BitVec.ofNat 8 (v.toNat / 2 ^ 24)]) ∧
  le16 1#16 = [0x01#8, 0x00#8] ∧ le16 0x0102#16 = [0x02#8, 0x01#8] ∧ le16 65535#16 = [0xFF#8, 0xFF#8] ∧
  le32 9600#32 = [0x80#8, 0x25#8, 0x00#8, 0x00#8] ∧
  (∀ (p d : List Byte) (b : Word), encodePacket p (some b) = .ok d →
    (d.drop 2).take 2 = le16 (BitVec.ofNat 16 p.length) ∧ (d.drop 4).take 4 = le32 b)

/-- R80: which words are legal, how many they are, and that every other word fails with `IllegalCommand` and
does nothing else. -/
def Obligations.LegalWordCriterion : Prop :=
  (∀ w : CmdWord, (∃ i, decode w = .instr i ∧ i.wellFormed = true) ↔
    w.toNat / 2 ^ 32 ≤ 9 ∧
    (w.toNat / 2 ^ 32 ∈ [0, 1, 3, 5, 8, 9] → w.toNat % 2 ^ 32 = 0) ∧
    (w.toNat / 2 ^ 32 ∈ [2, 7] → w.toNat % 2 ^ 32 < 256)) ∧
  Nat.card { w : CmdWord // ∃ i, decode w = .instr i ∧ i.wellFormed = true }
    = 6 * 1 + 2 * 256 + 2 * 2 ^ 32 ∧
  (∀ (s : State) (w : CmdWord) (rest : List HostEvent), s.input = .command w :: rest →
    (¬ ∃ i, decode w = .instr i ∧ i.wellFormed = true) →
    step s = .next { s with
      input := rest, err := s.err ||| 0b10000#5,
      responses := s.responses ++ [⟨.err .illegalCommand, 0#32⟩] })

/-- Decode and encode agree on every instruction, the reserved opcodes too, with every operand. -/
def Obligations.DecodeOfEncode : Prop := ∀ i : Instr, decode (encode i) = .instr i

/-- Each word has one meaning: a word that decodes is the encoding of what it decodes to. -/
def Obligations.EncodeOfDecode : Prop := ∀ (w : CmdWord) (i : Instr), decode w = .instr i → encode i = w

/-- The decoder reads spec/opcode_table.json: a word decodes to an instruction of a row exactly when its bits
under the row's mask are the row's bits. -/
def Obligations.DecodeFollowsTheOpcodeTable : Prop :=
  ∀ (w : CmdWord) (j : Instr),
    (∃ i, decode w = .instr i ∧ i.row = j.row) ↔ w &&& j.row.mask = j.row.bits

/-- Words written out from R77, R78 and R83's examples decode to the commands they stand for. -/
def Obligations.WrittenWordsDecode : Prop :=
  decode 0x400002580#36 = .instr (.setbaud 9600#32) ∧
  decode 0x600000001#36 = .instr (.start 1#32) ∧
  decode 0x700000041#36 = .instr (.push 0x41#8) ∧
  decode 0x300000000#36 = .instr .ckrd ∧
  decode 0x800000000#36 = .instr .strd ∧
  decode 0xF12345678#36 = .instr (.reservedF 0x12345678#32) ∧
  decode 0x7000001FF#36 = .illegal (.byteOperandTooWide 0x7#4)

/-! ### Steps and sequences of commands -/

/-- What a step does around a command: it takes the next event off the input; a word that decodes runs its
instruction, any other fails; a reset is taken and gets no response (log 12); with nothing presented the block
holds (R178, log 8). -/
def Obligations.StepRunsTheDecodedCommand : Prop :=
  ∀ s : State,
    (∀ (w : CmdWord) (rest : List HostEvent) (i : Instr), s.input = .command w :: rest →
      decode w = .instr i → step s = exec i { s with input := rest }) ∧
    (∀ (w : CmdWord) (rest : List HostEvent) (why : IllegalWord), s.input = .command w :: rest →
      decode w = .illegal why → step s = .next { s with
        input := rest, err := s.err ||| 0b10000#5,
        responses := s.responses ++ [⟨.err .illegalCommand, 0#32⟩] }) ∧
    (∀ rest : List HostEvent, s.input = .reset :: rest → step s = .next { s with
        ckA := 0#8, ckB := 0#8, rem := 0#16, baud := 0#32, baudKnown := false, err := 0#5,
        out := s.out ++ [.rst], input := rest }) ∧
    (s.input = [] → step s = .next s)

/-- The host's two entry points agree: the word `withFetchWord` presents is the one `decodeTableWord` reads,
and the very next step runs it, whatever else the host has presented. -/
def Obligations.FetchWordIsTheNextCommand : Prop :=
  ∀ (s : State) (nbits w : Nat) (i : Instr), decodeTableWord nbits w = some i →
    step (s.withFetchWord nbits w) = exec i s

/-- R57: the state after a sequence of commands is the fold of the step function over the sequence, each
command wholly before the next. -/
def Obligations.RunOfCommandsIsTheFold : Prop :=
  ∀ (is : List Instr) (s : State), s.input = is.map (fun i => HostEvent.command (encode i)) →
    Host.Core.run core is.length s = execAll is { s with input := [] }

/-- The commands of the stand-alone contract R106, with the other commands it allows between them: every one
answers `OK`, the CKRD returns `fletcher8` of the bytes fed, and the rest of the state is as it was. -/
def Obligations.StandAloneChecksumContract : Prop :=
  ∀ (s : State) (d : List Byte) (is : List Instr), s.rem = 0#16 →
    (∀ i ∈ is, inspects i = true ∨ setsBaud i = true ∨ ∃ x, i = .ckupd x) → is.filterMap ckupdByte = d →
    ∃ t : State, execAll (.ckclr :: (is ++ [.ckrd])) s = .next t ∧ AllOk (is.length + 2) s t ∧
      t.responses.getLast? =
        some ⟨.ok, ((fletcher8 d).2 ++ (fletcher8 d).1 : BitVec 16).setWidth 32⟩ ∧
      t.rem = s.rem ∧ t.out = s.out ∧
      ((∀ i ∈ is, setsBaud i = false) → t.baud = s.baud ∧ t.baudKnown = s.baudKnown) ∧
      (.errclr ∉ is → t.err = s.err)

/-- Every checksum the block reports is a function of the bytes fed since the last clear (R107): the pair is
`fletcher8` of them before a command, so it is after it, and after a reset it is that of no bytes; and CKRD
answers with it. -/
def Obligations.PairIsTheChecksumOfTheBytesFed : Prop :=
  (∀ (i : Instr) (s t : State) (fed : List Byte), (s.ckA, s.ckB) = fletcher8 fed → exec i s = .next t →
    (t.ckA, t.ckB) = fletcher8 (fedAfter i s fed)) ∧
  (∀ (s t : State) (rest : List HostEvent), s.input = .reset :: rest → step s = .next t →
    (t.ckA, t.ckB) = fletcher8 []) ∧
  (∀ (s t : State) (fed : List Byte), (s.ckA, s.ckB) = fletcher8 fed → exec .ckrd s = .next t →
    t.responses = s.responses ++
      [⟨.ok, ((fletcher8 fed).2 ++ (fletcher8 fed).1 : BitVec 16).setWidth 32⟩])

/-- `encode` of R120 fails as the rule says, and otherwise gives the packet of R70, byte by byte, of `10 + N`
bytes, with the checksum of R75 over the `6 + N` bytes at offsets 2 to `7 + N`. -/
def Obligations.EncodeLaysOutThePacket : Prop :=
  ∀ (p : List Byte) (b : Word),
    encodePacket p none = .error .invalidConfiguration ∧
    encodePacket p (some 0#32) = .error .invalidConfiguration ∧
    (b ≠ 0#32 → 65535 < p.length → encodePacket p (some b) = .error .payloadTooLarge) ∧
    (b ≠ 0#32 → p.length ≤ 65535 → ∃ d : List Byte, encodePacket p (some b) = .ok d ∧
      d.length = 10 + p.length ∧
      d[0]? = some 0xB5#8 ∧ d[1]? = some 0x62#8 ∧
      d[2]? = some (BitVec.ofNat 8 (p.length % 256)) ∧ d[3]? = some (BitVec.ofNat 8 (p.length / 256)) ∧
      d[4]? = some (b.extractLsb' 0 8) ∧ d[5]? = some (b.extractLsb' 8 8) ∧
      d[6]? = some (b.extractLsb' 16 8) ∧ d[7]? = some (b.extractLsb' 24 8) ∧
      (∀ i : Nat, i < p.length → d[8 + i]? = p[i]?) ∧
      d[8 + p.length]? = some (fletcher8 ((d.drop 2).take (6 + p.length))).1 ∧
      d[9 + p.length]? = some (fletcher8 ((d.drop 2).take (6 + p.length))).2)

/-- R130, the framing theorem: from idle, `START N` and its `N` PUSH, with the commands the rule allows
between them, answer `OK` throughout, append exactly the bytes of `encode(p, b)` with last flag 1 on the
final one alone, end idle with the packet's checksum in the pair, and add that one datagram; with the
`SETBAUD b` in front, or without it where the rate is `b` already. -/
def Obligations.FramingTheorem : Prop :=
  ∀ (s : State) (b : Word) (p d : List Byte) (before mid post : List Instr),
    s.rem = 0#16 → encodePacket p (some b) = .ok d →
    (before = [.setbaud b] ∨ (before = [] ∧ s.baud = b ∧ s.baudKnown = true)) →
    (∀ i ∈ mid, inspects i = true) →
    (∀ i ∈ post, inspects i = true ∨ setsBaud i = true ∨ ∃ x, i = .push x) →
    post.filterMap pushByte = p →
    ∃ t : State,
      execAll (before ++ mid ++ [.start (BitVec.ofNat 32 p.length)] ++ post) s = .next t ∧
      AllOk (before.length + mid.length + 1 + post.length) s t ∧
      t.out = s.out ++ packetBeats d ∧
      t.rem = 0#16 ∧
      d.drop (8 + p.length) = [t.ckA, t.ckB] ∧
      (.errclr ∉ mid ++ post → t.err = s.err) ∧
      (ClosedRun (lastSegment s.out) → datagrams t.out = datagrams s.out ++ [d])

/-- The baud rate is sampled once per packet (R131): leaving every SETBAUD and CLRBAUD out of a sequence
with no START in it changes no beat, nor the pair, nor `REM`, nor `ERR`. -/
def Obligations.BaudChangesDoNotTouchThePacket : Prop :=
  ∀ (is : List Instr) (s t u : State), (∀ i ∈ is, ∀ n, i ≠ .start n) →
    execAll is s = .next t → execAll (is.filter fun i => !setsBaud i) s = .next u →
    t.out = u.out ∧ t.ckA = u.ckA ∧ t.ckB = u.ckB ∧ t.rem = u.rem ∧ t.err = u.err

/-- R133: the command that completes a packet, the last PUSH or START 0, leaves the pair at the two bytes it
emits last, and until a command that writes the pair CKRD returns it. -/
def Obligations.PairIsKeptAfterThePacket : Prop :=
  (∀ (i : Instr) (s : State), ((∃ x, i = .push x) ∧ s.rem = 1#16) ∨
      (i = .start 0#32 ∧ s.rem = 0#16 ∧ s.baudKnown = true ∧ s.baud ≠ 0#32) →
    ∃ (t : State) (bs : List OutElem), exec i s = .next t ∧ t.rem = 0#16 ∧
      t.out = s.out ++ bs ++ [.beat ⟨t.ckA, false⟩, .beat ⟨t.ckB, true⟩]) ∧
  (∀ (is : List Instr) (s : State), s.rem = 0#16 →
    (∀ i ∈ is, i ≠ .ckclr ∧ (∀ x, i ≠ .ckupd x) ∧ ∀ n, i ≠ .start n) →
    ∃ t : State, execAll (is ++ [.ckrd]) s = .next t ∧ t.ckA = s.ckA ∧ t.ckB = s.ckB ∧
      t.responses.getLast? = some ⟨.ok, (s.ckB ++ s.ckA : BitVec 16).setWidth 32⟩)

/-- R134: two runs of `ENCODE b, p`, each from an idle state, append the same beats, whatever the rest of
the state was. -/
def Obligations.EncodeIsIdempotent : Prop :=
  ∀ (b : Word) (p : List Byte), p.length < 2 ^ 32 →
    ∃ bs : List OutElem, ∀ s : State, s.rem = 0#16 →
      ∃ t : State, execAll (encodeMacro b p) s = .next t ∧ t.out = s.out ++ bs

/-- R128: a beat with last flag 1 is emitted exactly by the last PUSH of a packet or by a START 0 that
succeeds, after which the block is idle; the command's last two beats carry the pair it leaves, and its other
beats have last flag 0. -/
def Obligations.LastFlagMarksCompletion : Prop :=
  ∀ (s t : State) (w : CmdWord) (rest : List HostEvent) (bs : List OutElem),
    s.input = .command w :: rest → step s = .next t → t.out = s.out ++ bs →
    ((∃ b : Beat, .beat b ∈ bs ∧ b.last = true) ↔
      t.responses = s.responses ++ [⟨.ok, 0#32⟩] ∧
        ((∃ x, decode w = .instr (.push x) ∧ s.rem = 1#16) ∨ decode w = .instr (.start 0#32))) ∧
    ((∃ b : Beat, .beat b ∈ bs ∧ b.last = true) →
      t.rem = 0#16 ∧ ∃ q : List OutElem, bs = q ++ [.beat ⟨t.ckA, false⟩, .beat ⟨t.ckB, true⟩] ∧
        ∀ b : Beat, .beat b ∈ q → b.last = false)

/-! ### Boot and hazards -/

/-- R193's boot requirement: idle with no valid baud rate, no sequence of commands that sets only 0 emits
anything or starts a packet. -/
def Obligations.NoPacketBeforeABaudRateIsSet : Prop :=
  ∀ (is : List Instr) (s t : State), s.rem = 0#16 → (s.baudKnown = false ∨ s.baud = 0#32) →
    (∀ v, .setbaud v ∈ is → v = 0#32) → execAll is s = .next t → t.out = s.out ∧ t.rem = 0#16

/-- R195: `ENCODE b, p` while busy, with fewer bytes than the packet in progress awaits: the SETBAUD changes
`BAUD`, the START fails with `Busy`, and the bytes go into the other packet. -/
def Obligations.EncodeWhileBusyFeedsTheOtherPacket : Prop :=
  ∀ (s : State) (b : Word) (p : List Byte), p.length < s.rem.toNat →
    ∃ t : State, execAll (encodeMacro b p) s = .next t ∧
      t.baud = b ∧ t.baudKnown = true ∧ t.err = s.err ||| 0b00100#5 ∧
      t.out = s.out ++ p.map (fun x => OutElem.beat ⟨x, false⟩) ∧
      t.rem.toNat = s.rem.toNat - p.length ∧
      t.responses = s.responses ++ [⟨.ok, 0#32⟩, ⟨.err .busy, 0#32⟩] ++
        List.replicate p.length ⟨.ok, 0#32⟩

/-- R197: after fewer PUSH than the packet awaits, whatever else the host issues, the block is still busy and
has not ended well; it has emitted those bytes with last flag 0 and nothing else, so no checksum and no
datagram; and it refuses CKCLR, CKUPD and START with `Busy`. -/
def Obligations.TooFewBytesLeaveTheBlockBusy : Prop :=
  ∀ (is : List Instr) (s t : State), (is.filterMap pushByte).length < s.rem.toNat →
    execAll is s = .next t →
    t.rem.toNat = s.rem.toNat - (is.filterMap pushByte).length ∧
    t.endedWell = false ∧
    t.out = s.out ++ (is.filterMap pushByte).map (fun x => OutElem.beat ⟨x, false⟩) ∧
    datagrams t.out = datagrams s.out ∧
    (∀ i : Instr, (i = .ckclr ∨ (∃ x, i = .ckupd x) ∨ ∃ n, i = .start n) →
      exec i t = .next { t with
        err := t.err ||| 0b00100#5, responses := t.responses ++ [⟨.err .busy, 0#32⟩] })

/-- R198: every PUSH after the last of a packet fails with `Sequence`, emits nothing, and disturbs
nothing. -/
def Obligations.TooManyBytesAreNotSent : Prop :=
  ∀ (p : List Byte) (s : State), s.rem = 0#16 →
    execAll (p.map Instr.push) s = .next { s with
      err := if p = [] then s.err else s.err ||| 0b01000#5,
      responses := s.responses ++ List.replicate p.length ⟨.err .sequence, 0#32⟩ }

/-! ### The output history -/

/-- `OUT` is append-only (R29): a step appends, and the marker `Rst` comes from a reset alone. -/
def Obligations.OutputOnlyGrows : Prop :=
  ∀ s t : State, step s = .next t →
    ∃ bs : List OutElem, t.out = s.out ++ bs ∧
      (.rst ∈ bs → bs = [.rst] ∧ ∃ rest, s.input = .reset :: rest)

/-- R60: the segments are the `Rst`-free pieces of the history in order, the runs of a piece end at its beats
with last flag 1 and leave a tail without one, and the datagrams are the data of the runs. -/
def Obligations.HistoryIsCutIntoDatagrams : Prop :=
  (∀ o : List OutElem,
    o = List.intercalate [OutElem.rst] ((segments o).map fun s => s.map OutElem.beat)) ∧
  (∀ s : List Beat, s = (runs s).1.flatten ++ (runs s).2 ∧
    (∀ r ∈ (runs s).1, ∃ (q : List Beat) (b : Beat), r = q ++ [b] ∧ b.last = true ∧
      ∀ c ∈ q, c.last = false) ∧
    (∀ c ∈ (runs s).2, c.last = false)) ∧
  (∀ o : List OutElem,
    datagrams o = ((segments o).map fun s => (runs s).1.map fun r => r.map Beat.data).flatten ∧
    ∃ l, (segments o).getLast? = some l ∧ inProgress o = (runs l).2.map Beat.data)

/-- R192: a reset abandons the packet in progress, which forms no datagram, and the next packet is whole: it
adds exactly its own datagram to those before the reset. -/
def Obligations.AbandonedPacketFormsNoDatagram : Prop :=
  ∀ (s : State) (rest : List HostEvent), s.input = .reset :: rest →
    ∃ t : State, step s = .next t ∧ datagrams t.out = datagrams s.out ∧ inProgress t.out = [] ∧
      ∀ (b : Word) (p d : List Byte), encodePacket p (some b) = .ok d →
        ∃ u : State, execAll (encodeMacro b p) t = .next u ∧ datagrams u.out = datagrams s.out ++ [d]

/-- R202, with R25: a reachable state has ended well when it is idle, and then nothing is in progress and all
beats since the last reset are whole packets; busy, the bytes in progress are the first `8 + (N - REM)` of a
packet whose payload length is `N`. -/
def Obligations.RunsEndWellExactlyWhenIdle : Prop :=
  ∀ s : State, Reachable s →
    (s.endedWell = true ↔ s.rem = 0#16) ∧
    (s.endedWell = true → inProgress s.out = [] ∧
      lastSegment s.out = (runs (lastSegment s.out)).1.flatten ∧
      ∀ d ∈ datagrams s.out, ∃ (p : List Byte) (b : Word), encodePacket p (some b) = .ok d) ∧
    (s.rem ≠ 0#16 → ∃ (n : Half) (b : Word) (p : List Byte),
      inProgress s.out = signature ++ headerFields n b ++ p ∧
      (inProgress s.out).length + s.rem.toNat = 8 + n.toNat)

/-! ### Invariants -/

/-- R31 (b) and (c) hold right after power-on. -/
def Obligations.OutShapeAtReset : Prop := State.reset.OutShape

/-- Every step keeps R31 (b) and (c), from every state that meets them. -/
def Obligations.StepKeepsOutShape : Prop :=
  ∀ s t : State, s.OutShape → step s = .next t → t.OutShape

/-- R31: (a) to (d) in every reachable state. -/
def Obligations.ReachableStatesMeetR31 : Prop :=
  ∀ s : State, Reachable s →
    s.rem.toNat ≤ 65535 ∧ s.OutShape ∧ s.status.extractLsb' 18 6 = 0#6 ∧ s.status.extractLsb' 29 3 = 0#3

/-- The stream invariant holds right after power-on. -/
def Obligations.StreamInvAtReset : Prop := State.reset.StreamInv

/-- Every step keeps the stream invariant, from every state that meets it. -/
def Obligations.StepKeepsStreamInv : Prop :=
  ∀ s t : State, s.StreamInv → step s = .next t → t.StreamInv

/-- No malformed packet is ever sent: whatever the host does, in whatever order, every datagram of every
reachable state is `encode` of some payload of at most 65535 bytes and some non-zero baud rate. -/
def Obligations.OnlyWholePacketsAreEverSent : Prop :=
  ∀ s : State, Reachable s → ∀ d ∈ datagrams s.out,
    ∃ (p : List Byte) (b : Word), b ≠ 0#32 ∧ p.length ≤ Config.payloadMax ∧
      encodePacket p (some b) = .ok d

/-- R132: in every datagram of every reachable state the number at offsets 2 and 3 is the number of bytes
between offset 8 and the checksum; and a host that supplies fewer bytes than it announced gets no datagram. -/
def Obligations.LengthFieldEqualsPayloadLength : Prop :=
  (∀ s : State, Reachable s → ∀ d ∈ datagrams s.out, ∃ lo hi : Byte,
    d[2]? = some lo ∧ d[3]? = some hi ∧
      d.length = Config.overheadBytes + (lo.toNat + 256 * hi.toNat)) ∧
  (∀ (is : List Instr) (s t : State), (is.filterMap pushByte).length < s.rem.toNat →
    execAll is s = .next t → datagrams t.out = datagrams s.out)
end

