-- ==== Sys2Proof/Laws/Decode.lean ====
section
/-! SUPPORT. The fields of a command word as numbers, and the tests of the formats as bounds. -/

namespace Sys2Proof

theorem toNat_cmdWord (k : BitVec 4) (a : Word) :
    BitVec.toNat (w := 36) (k ++ a) = k.toNat * 2 ^ 32 + a.toNat := by
  have h : BitVec.toNat (w := 36) (k ++ a) = k.toNat <<< 32 ||| a.toNat := BitVec.toNat_append k a
  rw [h, ← Nat.shiftLeft_add_eq_or_of_lt a.isLt, Nat.shiftLeft_eq]

theorem toNat_opcOf (w : CmdWord) : (opcOf w).toNat = w.toNat / 2 ^ 32 := by
  have := w.isLt
  simp only [opcOf, BitVec.extractLsb'_toNat, Nat.shiftRight_eq_div_pow]
  omega

theorem toNat_argOf (w : CmdWord) : (argOf w).toNat = w.toNat % 2 ^ 32 := by
  simp [argOf, BitVec.extractLsb'_toNat]

@[simp] theorem opcOf_append (k : BitVec 4) (a : Word) : opcOf (k ++ a) = k := by
  apply BitVec.eq_of_toNat_eq
  have := a.isLt
  rw [toNat_opcOf, toNat_cmdWord]
  omega

@[simp] theorem argOf_append (k : BitVec 4) (a : Word) : argOf (k ++ a) = a := by
  apply BitVec.eq_of_toNat_eq
  have := a.isLt
  rw [toNat_argOf, toNat_cmdWord]
  omega

theorem opcOf_append_argOf (w : CmdWord) : (opcOf w ++ argOf w : CmdWord) = w := by
  apply BitVec.eq_of_toNat_eq
  rw [toNat_cmdWord, toNat_opcOf, toNat_argOf]
  omega

@[simp] theorem opcOf_encode (i : Instr) : opcOf (encode i) = i.opcode := opcOf_append _ _

@[simp] theorem argOf_encode (i : Instr) : argOf (encode i) = i.arg := argOf_append _ _

theorem decode_append (k : BitVec 4) (a : Word) : decode (k ++ a) = decodeFields k a := by
  rw [decode, opcOf_append, argOf_append]

theorem decode_encode_fields (i : Instr) : decode (encode i) = decodeFields i.opcode i.arg :=
  decode_append _ _

/-- The test of format B: no bit above the low byte. -/
theorem highBits_eq_zero_iff (a : Word) : a.extractLsb' 8 24 = 0#24 ↔ a.toNat < 256 := by
  have := a.isLt
  rw [← BitVec.toNat_inj]
  simp only [BitVec.extractLsb'_toNat, Nat.shiftRight_eq_div_pow, BitVec.toNat_ofNat]
  omega

theorem byteOf_eq (a : Word) : byteOf a = BitVec.ofNat 8 a.toNat := by
  apply BitVec.eq_of_toNat_eq
  simp [byteOf, BitVec.extractLsb'_toNat]

theorem decodeZ_zero (k : BitVec 4) (i : Instr) : decodeZ k 0#32 i = .instr i := rfl

theorem decodeZ_of_ne (k : BitVec 4) (a : Word) (i : Instr) (h : a ≠ 0#32) :
    decodeZ k a i = .illegal (.operandNotZero k) := by simp [decodeZ, h]

theorem decodeB_of_lt (k : BitVec 4) (a : Word) (f : Byte → Instr) (h : a.toNat < 256) :
    decodeB k a f = .instr (f (BitVec.ofNat 8 a.toNat)) := by
  simp [decodeB, highBits_eq_zero_iff, h, byteOf_eq]

theorem decodeB_of_le (k : BitVec 4) (a : Word) (f : Byte → Instr) (h : 256 ≤ a.toNat) :
    decodeB k a f = .illegal (.byteOperandTooWide k) := by
  simp [decodeB, highBits_eq_zero_iff, Nat.not_lt.2 h]

theorem decodeZ_eq_instr_iff (k : BitVec 4) (a : Word) (i j : Instr) :
    decodeZ k a i = .instr j ↔ a = 0#32 ∧ i = j := by
  by_cases h : a = 0#32 <;> simp [decodeZ, h]

theorem decodeB_eq_instr_iff (k : BitVec 4) (a : Word) (f : Byte → Instr) (j : Instr) :
    decodeB k a f = .instr j ↔ a.toNat < 256 ∧ f (BitVec.ofNat 8 a.toNat) = j := by
  by_cases h : a.toNat < 256
  · rw [decodeB_of_lt k a f h]; simp [h]
  · rw [decodeB_of_le k a f (Nat.not_lt.1 h)]; simp [h]

/-! The sixteen opcodes. -/

@[simp] theorem decodeFields_0 (a : Word) : decodeFields 0x0#4 a = decodeZ 0x0#4 a .nop := rfl

@[simp] theorem decodeFields_1 (a : Word) : decodeFields 0x1#4 a = decodeZ 0x1#4 a .ckclr := rfl

@[simp] theorem decodeFields_2 (a : Word) : decodeFields 0x2#4 a = decodeB 0x2#4 a .ckupd := rfl

@[simp] theorem decodeFields_3 (a : Word) : decodeFields 0x3#4 a = decodeZ 0x3#4 a .ckrd := rfl

@[simp] theorem decodeFields_4 (a : Word) : decodeFields 0x4#4 a = .instr (.setbaud a) := rfl

@[simp] theorem decodeFields_5 (a : Word) : decodeFields 0x5#4 a = decodeZ 0x5#4 a .clrbaud := rfl

@[simp] theorem decodeFields_6 (a : Word) : decodeFields 0x6#4 a = .instr (.start a) := rfl

@[simp] theorem decodeFields_7 (a : Word) : decodeFields 0x7#4 a = decodeB 0x7#4 a .push := rfl

@[simp] theorem decodeFields_8 (a : Word) : decodeFields 0x8#4 a = decodeZ 0x8#4 a .strd := rfl

@[simp] theorem decodeFields_9 (a : Word) : decodeFields 0x9#4 a = decodeZ 0x9#4 a .errclr := rfl

@[simp] theorem decodeFields_A (a : Word) : decodeFields 0xA#4 a = .instr (.reservedA a) := rfl

@[simp] theorem decodeFields_B (a : Word) : decodeFields 0xB#4 a = .instr (.reservedB a) := rfl

@[simp] theorem decodeFields_C (a : Word) : decodeFields 0xC#4 a = .instr (.reservedC a) := rfl

@[simp] theorem decodeFields_D (a : Word) : decodeFields 0xD#4 a = .instr (.reservedD a) := rfl

@[simp] theorem decodeFields_E (a : Word) : decodeFields 0xE#4 a = .instr (.reservedE a) := rfl

@[simp] theorem decodeFields_F (a : Word) : decodeFields 0xF#4 a = .instr (.reservedF a) := rfl

/-- Every opcode is one of the sixteen. -/
theorem opcode_cases (k : BitVec 4) :
    k = 0x0#4 ∨ k = 0x1#4 ∨ k = 0x2#4 ∨ k = 0x3#4 ∨ k = 0x4#4 ∨ k = 0x5#4 ∨ k = 0x6#4 ∨ k = 0x7#4 ∨
    k = 0x8#4 ∨ k = 0x9#4 ∨ k = 0xA#4 ∨ k = 0xB#4 ∨ k = 0xC#4 ∨ k = 0xD#4 ∨ k = 0xE#4 ∨ k = 0xF#4 := by
  revert k
  decide

end Sys2Proof
end

