-- ==== Sys2Proof/Laws/State.lean ====
section
/-! SUPPORT. What each operation on the state leaves in each field: one lemma per field per operation. -/

namespace Sys2Proof.Machine

variable (s : State)

/-! ### emit -/

@[simp] theorem State.emit_ckA (d : Byte) (l : Bool) :
    (s.emit d l).ckA = s.ckA := rfl
@[simp] theorem State.emit_ckB (d : Byte) (l : Bool) :
    (s.emit d l).ckB = s.ckB := rfl
@[simp] theorem State.emit_rem (d : Byte) (l : Bool) :
    (s.emit d l).rem = s.rem := rfl
@[simp] theorem State.emit_baud (d : Byte) (l : Bool) :
    (s.emit d l).baud = s.baud := rfl
@[simp] theorem State.emit_baudKnown (d : Byte) (l : Bool) :
    (s.emit d l).baudKnown = s.baudKnown := rfl
@[simp] theorem State.emit_err (d : Byte) (l : Bool) :
    (s.emit d l).err = s.err := rfl
@[simp] theorem State.emit_out (d : Byte) (l : Bool) :
    (s.emit d l).out = s.out ++ [.beat ⟨d, l⟩] := rfl
@[simp] theorem State.emit_input (d : Byte) (l : Bool) :
    (s.emit d l).input = s.input := rfl
@[simp] theorem State.emit_responses (d : Byte) (l : Bool) :
    (s.emit d l).responses = s.responses := rfl

/-! ### respond -/

@[simp] theorem State.respond_ckA (c : RspCode) (d : Word) :
    (s.respond c d).ckA = s.ckA := rfl
@[simp] theorem State.respond_ckB (c : RspCode) (d : Word) :
    (s.respond c d).ckB = s.ckB := rfl
@[simp] theorem State.respond_rem (c : RspCode) (d : Word) :
    (s.respond c d).rem = s.rem := rfl
@[simp] theorem State.respond_baud (c : RspCode) (d : Word) :
    (s.respond c d).baud = s.baud := rfl
@[simp] theorem State.respond_baudKnown (c : RspCode) (d : Word) :
    (s.respond c d).baudKnown = s.baudKnown := rfl
@[simp] theorem State.respond_err (c : RspCode) (d : Word) :
    (s.respond c d).err = s.err := rfl
@[simp] theorem State.respond_out (c : RspCode) (d : Word) :
    (s.respond c d).out = s.out := rfl
@[simp] theorem State.respond_input (c : RspCode) (d : Word) :
    (s.respond c d).input = s.input := rfl
@[simp] theorem State.respond_responses (c : RspCode) (d : Word) :
    (s.respond c d).responses = s.responses ++ [⟨c, d⟩] := rfl

/-! ### ok -/

@[simp] theorem State.ok_ckA :
    s.ok.ckA = s.ckA := rfl
@[simp] theorem State.ok_ckB :
    s.ok.ckB = s.ckB := rfl
@[simp] theorem State.ok_rem :
    s.ok.rem = s.rem := rfl
@[simp] theorem State.ok_baud :
    s.ok.baud = s.baud := rfl
@[simp] theorem State.ok_baudKnown :
    s.ok.baudKnown = s.baudKnown := rfl
@[simp] theorem State.ok_err :
    s.ok.err = s.err := rfl
@[simp] theorem State.ok_out :
    s.ok.out = s.out := rfl
@[simp] theorem State.ok_input :
    s.ok.input = s.input := rfl
@[simp] theorem State.ok_responses :
    s.ok.responses = s.responses ++ [⟨.ok, 0#32⟩] := rfl

/-! ### setPair -/

@[simp] theorem State.setPair_ckA (p : Byte × Byte) :
    (s.setPair p).ckA = p.1 := rfl
@[simp] theorem State.setPair_ckB (p : Byte × Byte) :
    (s.setPair p).ckB = p.2 := rfl
@[simp] theorem State.setPair_rem (p : Byte × Byte) :
    (s.setPair p).rem = s.rem := rfl
@[simp] theorem State.setPair_baud (p : Byte × Byte) :
    (s.setPair p).baud = s.baud := rfl
@[simp] theorem State.setPair_baudKnown (p : Byte × Byte) :
    (s.setPair p).baudKnown = s.baudKnown := rfl
@[simp] theorem State.setPair_err (p : Byte × Byte) :
    (s.setPair p).err = s.err := rfl
@[simp] theorem State.setPair_out (p : Byte × Byte) :
    (s.setPair p).out = s.out := rfl
@[simp] theorem State.setPair_input (p : Byte × Byte) :
    (s.setPair p).input = s.input := rfl
@[simp] theorem State.setPair_responses (p : Byte × Byte) :
    (s.setPair p).responses = s.responses := rfl

/-! ### feed -/

@[simp] theorem State.feed_ckA (x : Byte) :
    (s.feed x).ckA = (ckStep (s.ckA, s.ckB) x).1 := rfl
@[simp] theorem State.feed_ckB (x : Byte) :
    (s.feed x).ckB = (ckStep (s.ckA, s.ckB) x).2 := rfl
@[simp] theorem State.feed_rem (x : Byte) :
    (s.feed x).rem = s.rem := rfl
@[simp] theorem State.feed_baud (x : Byte) :
    (s.feed x).baud = s.baud := rfl
@[simp] theorem State.feed_baudKnown (x : Byte) :
    (s.feed x).baudKnown = s.baudKnown := rfl
@[simp] theorem State.feed_err (x : Byte) :
    (s.feed x).err = s.err := rfl
@[simp] theorem State.feed_out (x : Byte) :
    (s.feed x).out = s.out := rfl
@[simp] theorem State.feed_input (x : Byte) :
    (s.feed x).input = s.input := rfl
@[simp] theorem State.feed_responses (x : Byte) :
    (s.feed x).responses = s.responses := rfl

/-! ### emitFeed -/

@[simp] theorem State.emitFeed_ckA (x : Byte) :
    (s.emitFeed x).ckA = (ckStep (s.ckA, s.ckB) x).1 := rfl
@[simp] theorem State.emitFeed_ckB (x : Byte) :
    (s.emitFeed x).ckB = (ckStep (s.ckA, s.ckB) x).2 := rfl
@[simp] theorem State.emitFeed_rem (x : Byte) :
    (s.emitFeed x).rem = s.rem := rfl
@[simp] theorem State.emitFeed_baud (x : Byte) :
    (s.emitFeed x).baud = s.baud := rfl
@[simp] theorem State.emitFeed_baudKnown (x : Byte) :
    (s.emitFeed x).baudKnown = s.baudKnown := rfl
@[simp] theorem State.emitFeed_err (x : Byte) :
    (s.emitFeed x).err = s.err := rfl
@[simp] theorem State.emitFeed_out (x : Byte) :
    (s.emitFeed x).out = s.out ++ [.beat ⟨x, false⟩] := rfl
@[simp] theorem State.emitFeed_input (x : Byte) :
    (s.emitFeed x).input = s.input := rfl
@[simp] theorem State.emitFeed_responses (x : Byte) :
    (s.emitFeed x).responses = s.responses := rfl

/-! ### finish -/

@[simp] theorem State.finish_ckA :
    s.finish.ckA = s.ckA := rfl
@[simp] theorem State.finish_ckB :
    s.finish.ckB = s.ckB := rfl
@[simp] theorem State.finish_rem :
    s.finish.rem = s.rem := rfl
@[simp] theorem State.finish_baud :
    s.finish.baud = s.baud := rfl
@[simp] theorem State.finish_baudKnown :
    s.finish.baudKnown = s.baudKnown := rfl
@[simp] theorem State.finish_err :
    s.finish.err = s.err := rfl
@[simp] theorem State.finish_out :
    s.finish.out = s.out ++ [.beat ⟨s.ckA, false⟩] ++ [.beat ⟨s.ckB, true⟩] := rfl
@[simp] theorem State.finish_input :
    s.finish.input = s.input := rfl
@[simp] theorem State.finish_responses :
    s.finish.responses = s.responses := rfl

/-! ### setRem -/

@[simp] theorem State.setRem_ckA (n : Half) :
    (s.setRem n).ckA = s.ckA := rfl
@[simp] theorem State.setRem_ckB (n : Half) :
    (s.setRem n).ckB = s.ckB := rfl
@[simp] theorem State.setRem_rem (n : Half) :
    (s.setRem n).rem = n := rfl
@[simp] theorem State.setRem_baud (n : Half) :
    (s.setRem n).baud = s.baud := rfl
@[simp] theorem State.setRem_baudKnown (n : Half) :
    (s.setRem n).baudKnown = s.baudKnown := rfl
@[simp] theorem State.setRem_err (n : Half) :
    (s.setRem n).err = s.err := rfl
@[simp] theorem State.setRem_out (n : Half) :
    (s.setRem n).out = s.out := rfl
@[simp] theorem State.setRem_input (n : Half) :
    (s.setRem n).input = s.input := rfl
@[simp] theorem State.setRem_responses (n : Half) :
    (s.setRem n).responses = s.responses := rfl

/-! ### setBaud -/

@[simp] theorem State.setBaud_ckA (v : Word) (k : Bool) :
    (s.setBaud v k).ckA = s.ckA := rfl
@[simp] theorem State.setBaud_ckB (v : Word) (k : Bool) :
    (s.setBaud v k).ckB = s.ckB := rfl
@[simp] theorem State.setBaud_rem (v : Word) (k : Bool) :
    (s.setBaud v k).rem = s.rem := rfl
@[simp] theorem State.setBaud_baud (v : Word) (k : Bool) :
    (s.setBaud v k).baud = v := rfl
@[simp] theorem State.setBaud_baudKnown (v : Word) (k : Bool) :
    (s.setBaud v k).baudKnown = k := rfl
@[simp] theorem State.setBaud_err (v : Word) (k : Bool) :
    (s.setBaud v k).err = s.err := rfl
@[simp] theorem State.setBaud_out (v : Word) (k : Bool) :
    (s.setBaud v k).out = s.out := rfl
@[simp] theorem State.setBaud_input (v : Word) (k : Bool) :
    (s.setBaud v k).input = s.input := rfl
@[simp] theorem State.setBaud_responses (v : Word) (k : Bool) :
    (s.setBaud v k).responses = s.responses := rfl

/-! ### setFlag -/

@[simp] theorem State.setFlag_ckA (c : ErrCode) :
    (s.setFlag c).ckA = s.ckA := rfl
@[simp] theorem State.setFlag_ckB (c : ErrCode) :
    (s.setFlag c).ckB = s.ckB := rfl
@[simp] theorem State.setFlag_rem (c : ErrCode) :
    (s.setFlag c).rem = s.rem := rfl
@[simp] theorem State.setFlag_baud (c : ErrCode) :
    (s.setFlag c).baud = s.baud := rfl
@[simp] theorem State.setFlag_baudKnown (c : ErrCode) :
    (s.setFlag c).baudKnown = s.baudKnown := rfl
@[simp] theorem State.setFlag_err (c : ErrCode) :
    (s.setFlag c).err = s.err ||| c.flag := rfl
@[simp] theorem State.setFlag_out (c : ErrCode) :
    (s.setFlag c).out = s.out := rfl
@[simp] theorem State.setFlag_input (c : ErrCode) :
    (s.setFlag c).input = s.input := rfl
@[simp] theorem State.setFlag_responses (c : ErrCode) :
    (s.setFlag c).responses = s.responses := rfl

/-! ### clearFlags -/

@[simp] theorem State.clearFlags_ckA :
    s.clearFlags.ckA = s.ckA := rfl
@[simp] theorem State.clearFlags_ckB :
    s.clearFlags.ckB = s.ckB := rfl
@[simp] theorem State.clearFlags_rem :
    s.clearFlags.rem = s.rem := rfl
@[simp] theorem State.clearFlags_baud :
    s.clearFlags.baud = s.baud := rfl
@[simp] theorem State.clearFlags_baudKnown :
    s.clearFlags.baudKnown = s.baudKnown := rfl
@[simp] theorem State.clearFlags_err :
    s.clearFlags.err = 0#5 := rfl
@[simp] theorem State.clearFlags_out :
    s.clearFlags.out = s.out := rfl
@[simp] theorem State.clearFlags_input :
    s.clearFlags.input = s.input := rfl
@[simp] theorem State.clearFlags_responses :
    s.clearFlags.responses = s.responses := rfl

/-! ### raise -/

@[simp] theorem State.raise_ckA (c : ErrCode) :
    (s.raise c).ckA = s.ckA := rfl
@[simp] theorem State.raise_ckB (c : ErrCode) :
    (s.raise c).ckB = s.ckB := rfl
@[simp] theorem State.raise_rem (c : ErrCode) :
    (s.raise c).rem = s.rem := rfl
@[simp] theorem State.raise_baud (c : ErrCode) :
    (s.raise c).baud = s.baud := rfl
@[simp] theorem State.raise_baudKnown (c : ErrCode) :
    (s.raise c).baudKnown = s.baudKnown := rfl
@[simp] theorem State.raise_err (c : ErrCode) :
    (s.raise c).err = s.err ||| c.flag := rfl
@[simp] theorem State.raise_out (c : ErrCode) :
    (s.raise c).out = s.out := rfl
@[simp] theorem State.raise_input (c : ErrCode) :
    (s.raise c).input = s.input := rfl
@[simp] theorem State.raise_responses (c : ErrCode) :
    (s.raise c).responses = s.responses ++ [⟨.err c, 0#32⟩] := rfl

/-! ### takeReset -/

@[simp] theorem State.takeReset_ckA :
    s.takeReset.ckA = 0#8 := rfl
@[simp] theorem State.takeReset_ckB :
    s.takeReset.ckB = 0#8 := rfl
@[simp] theorem State.takeReset_rem :
    s.takeReset.rem = 0#16 := rfl
@[simp] theorem State.takeReset_baud :
    s.takeReset.baud = 0#32 := rfl
@[simp] theorem State.takeReset_baudKnown :
    s.takeReset.baudKnown = false := rfl
@[simp] theorem State.takeReset_err :
    s.takeReset.err = 0#5 := rfl
@[simp] theorem State.takeReset_out :
    s.takeReset.out = s.out ++ [.rst] := rfl
@[simp] theorem State.takeReset_input :
    s.takeReset.input = s.input := rfl
@[simp] theorem State.takeReset_responses :
    s.takeReset.responses = s.responses := rfl

/-! ### present -/

@[simp] theorem State.present_ckA (w : CmdWord) :
    (s.present w).ckA = s.ckA := rfl
@[simp] theorem State.present_ckB (w : CmdWord) :
    (s.present w).ckB = s.ckB := rfl
@[simp] theorem State.present_rem (w : CmdWord) :
    (s.present w).rem = s.rem := rfl
@[simp] theorem State.present_baud (w : CmdWord) :
    (s.present w).baud = s.baud := rfl
@[simp] theorem State.present_baudKnown (w : CmdWord) :
    (s.present w).baudKnown = s.baudKnown := rfl
@[simp] theorem State.present_err (w : CmdWord) :
    (s.present w).err = s.err := rfl
@[simp] theorem State.present_out (w : CmdWord) :
    (s.present w).out = s.out := rfl
@[simp] theorem State.present_input (w : CmdWord) :
    (s.present w).input = .command w :: s.input := rfl
@[simp] theorem State.present_responses (w : CmdWord) :
    (s.present w).responses = s.responses := rfl

end Sys2Proof.Machine
end

