-- ==== Sys2Proof/Laws/Ops.lean ====
section
/-! SUPPORT. What the shared operations do as a whole: the predicates on the state, feeding many bytes, the
header of a packet, the end of a packet. -/

namespace Sys2Proof.Machine

theorem busy_eq_true_iff (s : State) : s.busy = true ↔ s.rem ≠ 0#16 := by simp [State.busy]

theorem busy_eq_false_iff (s : State) : s.busy = false ↔ s.rem = 0#16 := by simp [State.busy]

theorem baudValid_iff (s : State) : s.baudValid = true ↔ s.baudKnown = true ∧ s.baud ≠ 0#32 := by
  simp [State.baudValid]

theorem lengthTooLarge_iff (n : Word) : lengthTooLarge n = true ↔ 65535 < n.toNat := by
  simp [lengthTooLarge, BitVec.lt_def]

theorem lengthTooLarge_eq_false_iff (n : Word) : lengthTooLarge n = false ↔ n.toNat ≤ 65535 := by
  rw [← Bool.not_eq_true, lengthTooLarge_iff, Nat.not_lt]

theorem toNat_lengthField (n : Word) (h : n.toNat ≤ 65535) : (lengthField n).toNat = n.toNat := by
  simp [lengthField, BitVec.extractLsb'_toNat]; omega

/-- The data of CKRD's response as a number. -/
theorem toNat_pairData (a b : Byte) : (pairData a b).toNat = a.toNat + 256 * b.toNat := by
  have ha := a.isLt
  have hb := b.isLt
  have h : BitVec.toNat (w := 16) (b ++ a) = b.toNat <<< 8 ||| a.toNat := BitVec.toNat_append b a
  rw [pairData, BitVec.toNat_setWidth, h, ← Nat.shiftLeft_add_eq_or_of_lt ha, Nat.shiftLeft_eq]
  omega

/-- The status word as a number. -/
theorem toNat_status (s : State) :
    s.status.toNat = s.rem.toNat + 2 ^ 16 * s.busy.toNat + 2 ^ 17 * s.baudKnown.toNat +
      2 ^ 24 * s.err.toNat := by
  have h1 := s.rem.isLt
  have h2 := s.err.isLt
  simp only [State.status, BitVec.toNat_append]
  rw [← Nat.shiftLeft_add_eq_or_of_lt h1, ← Nat.shiftLeft_add_eq_or_of_lt (BitVec.isLt _),
    ← Nat.shiftLeft_add_eq_or_of_lt (BitVec.isLt _), ← Nat.shiftLeft_add_eq_or_of_lt (BitVec.isLt _),
    ← Nat.shiftLeft_add_eq_or_of_lt (BitVec.isLt _)]
  simp only [Nat.shiftLeft_eq, BitVec.toNat_ofBool, BitVec.toNat_ofNat]
  omega

@[simp] theorem fletcher8_nil : fletcher8 [] = (0#8, 0#8) := rfl

theorem fletcher8_concat (s : List Byte) (x : Byte) : fletcher8 (s ++ [x]) = ckStep (fletcher8 s) x := by
  simp [fletcher8]

/-- Feeding bytes one by one: the pair is the fold, the rest is unchanged. -/
theorem foldl_feed (s : State) (xs : List Byte) :
    xs.foldl State.feed s = s.setPair (xs.foldl ckStep (s.ckA, s.ckB)) := by
  induction xs generalizing s with
  | nil => rfl
  | cons x xs ih => rw [List.foldl_cons, ih]; rfl

/-- Emitting and feeding bytes one by one: the beats are appended with last flag 0 and the pair is the
fold. -/
theorem foldl_emitFeed (s : State) (xs : List Byte) :
    xs.foldl State.emitFeed s =
      { s with ckA := (xs.foldl ckStep (s.ckA, s.ckB)).1, ckB := (xs.foldl ckStep (s.ckA, s.ckB)).2,
               out := s.out ++ xs.map fun x => .beat ⟨x, false⟩ } := by
  induction xs generalizing s with
  | nil => simp
  | cons x xs ih => rw [List.foldl_cons, ih]; simp [State.emitFeed, State.feed, State.setPair, State.emit]

/-- The header of a packet: eight beats with last flag 0, and the pair is the checksum of the last six. -/
theorem emitHeader_eq (s : State) (n : Half) :
    s.emitHeader n =
      { s with ckA := (fletcher8 (headerFields n s.baud)).1, ckB := (fletcher8 (headerFields n s.baud)).2,
               out := s.out ++ (signature ++ headerFields n s.baud).map fun x => .beat ⟨x, false⟩ } := by
  rw [State.emitHeader, foldl_emitFeed]
  simp [signature, fletcher8, State.setPair, State.emit]

theorem finishIfDone_done (s : State) (h : s.rem = 0#16) : s.finishIfDone = s.finish := if_pos h

theorem finishIfDone_open (s : State) (h : s.rem ≠ 0#16) : s.finishIfDone = s := if_neg h

/-- The end of START and PUSH: the two checksum beats when no payload byte is left, nothing otherwise. -/
theorem finishIfDone_cases (s : State) :
    (s.rem = 0#16 ∧ s.finishIfDone = s.finish) ∨ (s.rem ≠ 0#16 ∧ s.finishIfDone = s) := by
  by_cases h : s.rem = 0#16 <;> simp [State.finishIfDone, h]

@[simp] theorem finishIfDone_ckA (s : State) : s.finishIfDone.ckA = s.ckA := by
  rw [State.finishIfDone]; split <;> rfl

@[simp] theorem finishIfDone_ckB (s : State) : s.finishIfDone.ckB = s.ckB := by
  rw [State.finishIfDone]; split <;> rfl

@[simp] theorem finishIfDone_rem (s : State) : s.finishIfDone.rem = s.rem := by
  rw [State.finishIfDone]; split <;> rfl

@[simp] theorem finishIfDone_baud (s : State) : s.finishIfDone.baud = s.baud := by
  rw [State.finishIfDone]; split <;> rfl

@[simp] theorem finishIfDone_baudKnown (s : State) : s.finishIfDone.baudKnown = s.baudKnown := by
  rw [State.finishIfDone]; split <;> rfl

@[simp] theorem finishIfDone_err (s : State) : s.finishIfDone.err = s.err := by
  rw [State.finishIfDone]; split <;> rfl

@[simp] theorem finishIfDone_input (s : State) : s.finishIfDone.input = s.input := by
  rw [State.finishIfDone]; split <;> rfl

@[simp] theorem finishIfDone_responses (s : State) : s.finishIfDone.responses = s.responses := by
  rw [State.finishIfDone]; split <;> rfl

theorem finishIfDone_out (s : State) :
    s.finishIfDone.out =
      s.out ++ if s.rem = 0#16 then [.beat ⟨s.ckA, false⟩, .beat ⟨s.ckB, true⟩] else [] := by
  rw [State.finishIfDone]; split <;> simp_all

/-! The cases of the commands that can fail. -/

theorem execCkclr_busy (s : State) (h : s.busy = true) : execCkclr s = .next (s.raise .busy) := by
  simp [execCkclr, h]

theorem execCkclr_idle (s : State) (h : s.busy = false) :
    execCkclr s = .next (s.setPair (0#8, 0#8)).ok := by simp [execCkclr, h]

theorem execCkupd_busy (x : Byte) (s : State) (h : s.busy = true) :
    execCkupd x s = .next (s.raise .busy) := by simp [execCkupd, h]

theorem execCkupd_idle (x : Byte) (s : State) (h : s.busy = false) :
    execCkupd x s = .next (s.feed x).ok := by simp [execCkupd, h]

theorem execPush_idle (x : Byte) (s : State) (h : s.busy = false) :
    execPush x s = .next (s.raise .sequence) := by simp [execPush, h]

theorem execPush_busy (x : Byte) (s : State) (h : s.busy = true) :
    execPush x s = .next ((s.emitFeed x).setRem (s.rem - 1#16)).finishIfDone.ok := by simp [execPush, h]

theorem execStart_busy (n : Word) (s : State) (h : s.busy = true) :
    execStart n s = .next (s.raise .busy) := by simp [execStart, h]

theorem execStart_invalidConfiguration (n : Word) (s : State) (h : s.busy = false)
    (hb : s.baudValid = false) : execStart n s = .next (s.raise .invalidConfiguration) := by
  simp [execStart, h, hb]

theorem execStart_payloadTooLarge (n : Word) (s : State) (h : s.busy = false) (hb : s.baudValid = true)
    (hn : lengthTooLarge n = true) : execStart n s = .next (s.raise .payloadTooLarge) := by
  simp [execStart, h, hb, hn]

theorem execStart_ok (n : Word) (s : State) (h : s.busy = false) (hb : s.baudValid = true)
    (hn : lengthTooLarge n = false) :
    execStart n s = .next ((s.emitHeader (lengthField n)).setRem (lengthField n)).finishIfDone.ok := by
  simp [execStart, h, hb, hn]

end Sys2Proof.Machine
end

