-- ==== Sys2Proof/Laws/Exec.lean ====
section
/-! SUPPORT. What a command can do to the state, said once: `exec` always answers a next state, and that state
is one of seven kinds (`exec_cases`). Sequences of commands are folds of it. -/

namespace Sys2Proof.Machine

/-- The state after a command. -/
def after (s : State) (i : Instr) : State :=
  match exec i s with
  | .next t => t
  | .fault _ => s
  | .refused _ => s

theorem exec_next (i : Instr) (s : State) : ∃ t, exec i s = .next t := by
  cases i <;> simp only [exec, execNop, execCkclr, execCkupd, execCkrd, execSetbaud, execClrbaud, execStart,
    execPush, execStrd, execErrclr, execReservedA, execReservedB, execReservedC, execReservedD,
    execReservedE, execReservedF] <;> (repeat' split) <;> exact ⟨_, rfl⟩

theorem exec_eq_after (i : Instr) (s : State) : exec i s = .next (after s i) := by
  obtain ⟨t, h⟩ := exec_next i s
  simp [after, h]

theorem after_eq {i : Instr} {s t : State} (h : exec i s = .next t) : after s i = t := by simp [after, h]

/-! The cases of the commands that can fail, as states. -/

theorem after_ckclr_busy (s : State) (h : s.busy = true) : after s .ckclr = s.raise .busy :=
  after_eq (execCkclr_busy s h)

theorem after_ckclr_idle (s : State) (h : s.busy = false) : after s .ckclr = (s.setPair (0#8, 0#8)).ok :=
  after_eq (execCkclr_idle s h)

theorem after_ckupd_busy (x : Byte) (s : State) (h : s.busy = true) :
    after s (.ckupd x) = s.raise .busy := after_eq (execCkupd_busy x s h)

theorem after_ckupd_idle (x : Byte) (s : State) (h : s.busy = false) :
    after s (.ckupd x) = (s.feed x).ok := after_eq (execCkupd_idle x s h)

theorem after_push_idle (x : Byte) (s : State) (h : s.busy = false) :
    after s (.push x) = s.raise .sequence := after_eq (execPush_idle x s h)

theorem after_push_busy (x : Byte) (s : State) (h : s.busy = true) :
    after s (.push x) = ((s.emitFeed x).setRem (s.rem - 1#16)).finishIfDone.ok :=
  after_eq (execPush_busy x s h)

theorem after_start_busy (n : Word) (s : State) (h : s.busy = true) :
    after s (.start n) = s.raise .busy := after_eq (execStart_busy n s h)

theorem after_start_invalidConfiguration (n : Word) (s : State) (h : s.busy = false)
    (hb : s.baudValid = false) : after s (.start n) = s.raise .invalidConfiguration :=
  after_eq (execStart_invalidConfiguration n s h hb)

theorem after_start_payloadTooLarge (n : Word) (s : State) (h : s.busy = false) (hb : s.baudValid = true)
    (hn : lengthTooLarge n = true) : after s (.start n) = s.raise .payloadTooLarge :=
  after_eq (execStart_payloadTooLarge n s h hb hn)

theorem after_start_ok (n : Word) (s : State) (h : s.busy = false) (hb : s.baudValid = true)
    (hn : lengthTooLarge n = false) :
    after s (.start n) = ((s.emitHeader (lengthField n)).setRem (lengthField n)).finishIfDone.ok :=
  after_eq (execStart_ok n s h hb hn)

/-- A sequence of commands is a fold, and always answers a next state. -/
theorem execAll_eq_foldl (is : List Instr) (s : State) : execAll is s = .next (is.foldl after s) := by
  induction is generalizing s with
  | nil => rfl
  | cons i is ih => simp [execAll, exec_eq_after i s, ih]

theorem execAll_append (is js : List Instr) (s : State) :
    execAll (is ++ js) s = execAll js (is.foldl after s) := by
  simp [execAll_eq_foldl]

/-- Everything a command can do: fail; answer with data and change nothing else; or one of the seven commands
that write, in the states where they do. -/
theorem exec_cases (i : Instr) (s : State) :
    (∃ c, after s i = s.raise c) ∨
    ((i = .nop ∨ i = .ckrd ∨ i = .strd) ∧ ∃ d, after s i = s.respond .ok d) ∨
    (i = .errclr ∧ after s i = s.clearFlags.ok) ∨
    ((i = .clrbaud ∨ ∃ v, i = .setbaud v) ∧ ∃ v k, after s i = (s.setBaud v k).ok) ∨
    (s.busy = false ∧ (i = .ckclr ∨ ∃ x, i = .ckupd x) ∧ ∃ p, after s i = (s.setPair p).ok) ∨
    (∃ n, i = .start n ∧ s.busy = false ∧ s.baudValid = true ∧ n.toNat ≤ 65535 ∧
      after s i = ((s.emitHeader (lengthField n)).setRem (lengthField n)).finishIfDone.ok) ∨
    (∃ x, i = .push x ∧ s.busy = true ∧
      after s i = ((s.emitFeed x).setRem (s.rem - 1#16)).finishIfDone.ok) := by
  cases i with
  | nop => exact .inr (.inl ⟨.inl rfl, _, rfl⟩)
  | ckrd => exact .inr (.inl ⟨.inr (.inl rfl), _, rfl⟩)
  | strd => exact .inr (.inl ⟨.inr (.inr rfl), _, rfl⟩)
  | errclr => exact .inr (.inr (.inl ⟨rfl, rfl⟩))
  | setbaud v => exact .inr (.inr (.inr (.inl ⟨.inr ⟨v, rfl⟩, _, _, rfl⟩)))
  | clrbaud => exact .inr (.inr (.inr (.inl ⟨.inl rfl, _, _, rfl⟩)))
  | ckclr =>
    cases h : s.busy with
    | true => exact .inl ⟨_, after_ckclr_busy s h⟩
    | false =>
      exact .inr (.inr (.inr (.inr (.inl ⟨rfl, .inl rfl, _, after_ckclr_idle s h⟩))))
  | ckupd x =>
    cases h : s.busy with
    | true => exact .inl ⟨_, after_ckupd_busy x s h⟩
    | false =>
      exact .inr (.inr (.inr (.inr (.inl ⟨rfl, .inr ⟨x, rfl⟩, _, after_ckupd_idle x s h⟩))))
  | start n =>
    cases h : s.busy with
    | true => exact .inl ⟨_, after_start_busy n s h⟩
    | false =>
      cases hb : s.baudValid with
      | false => exact .inl ⟨_, after_start_invalidConfiguration n s h hb⟩
      | true =>
        cases hn : lengthTooLarge n with
        | true => exact .inl ⟨_, after_start_payloadTooLarge n s h hb hn⟩
        | false =>
          exact .inr (.inr (.inr (.inr (.inr (.inl
            ⟨n, rfl, rfl, rfl, (lengthTooLarge_eq_false_iff n).1 hn,
              after_start_ok n s h hb hn⟩)))))
  | push x =>
    cases h : s.busy with
    | true => exact .inr (.inr (.inr (.inr (.inr (.inr ⟨x, rfl, rfl, after_push_busy x s h⟩)))))
    | false => exact .inl ⟨_, after_push_idle x s h⟩
  | reservedA a => exact .inl ⟨_, rfl⟩
  | reservedB a => exact .inl ⟨_, rfl⟩
  | reservedC a => exact .inl ⟨_, rfl⟩
  | reservedD a => exact .inl ⟨_, rfl⟩
  | reservedE a => exact .inl ⟨_, rfl⟩
  | reservedF a => exact .inl ⟨_, rfl⟩

/-- A command neither reads nor writes what the host has presented. -/
theorem after_with_input (s : State) (i : Instr) (l : List HostEvent) :
    after { s with input := l } i = { after s i with input := l } := by
  have hb : State.busy { s with input := l } = s.busy := rfl
  have hv : State.baudValid { s with input := l } = s.baudValid := rfl
  cases i <;> simp only [after, exec, execNop, execCkclr, execCkupd, execCkrd, execSetbaud, execClrbaud,
    execStart, execPush, execStrd, execErrclr, execReservedA, execReservedB, execReservedC, execReservedD,
    execReservedE, execReservedF, hb, hv]
  case ckclr => cases s.busy <;> rfl
  case ckupd x => cases s.busy <;> rfl
  case start n =>
    cases s.busy <;> cases s.baudValid <;> cases lengthTooLarge n <;> try rfl
    simp only [emitHeader_eq, Bool.not_true, Bool.false_eq_true, if_false]
    by_cases h : lengthField n = 0#16
    · rw [finishIfDone_done _ h, finishIfDone_done _ h]; rfl
    · rw [finishIfDone_open _ h, finishIfDone_open _ h]; rfl
  case push x =>
    cases s.busy <;> try rfl
    simp only [if_true]
    by_cases h : s.rem - 1#16 = 0#16
    · rw [finishIfDone_done _ h, finishIfDone_done _ h]; rfl
    · rw [finishIfDone_open _ h, finishIfDone_open _ h]; rfl
  all_goals rfl

theorem step_hold {s : State} (h : s.input = []) : step s = .next s := by
  simp only [step, State.nextEvent, h, State.hold]

theorem step_reset {s : State} {rest : List HostEvent} (h : s.input = .reset :: rest) :
    step s = .next ({ s with input := rest } : State).takeReset := by
  simp only [step, State.nextEvent, h]

theorem step_command {s : State} {w : CmdWord} {rest : List HostEvent}
    (h : s.input = .command w :: rest) : step s = execWord w { s with input := rest } := by
  simp only [step, State.nextEvent, h]

theorem execWord_instr {w : CmdWord} {i : Instr} (h : decode w = .instr i) (s : State) :
    execWord w s = exec i s := by
  simp only [execWord, h]

theorem execWord_illegal {w : CmdWord} {why : IllegalWord} (h : decode w = .illegal why) (s : State) :
    execWord w s = .next s.raiseIllegal := by
  simp only [execWord, h, execIllegalWord]

/-- Everything a step can do: hold, take a reset, run the decoded command, or fail an illegal word. -/
theorem step_cases (s : State) :
    (s.input = [] ∧ step s = .next s) ∨
    (∃ rest, s.input = .reset :: rest ∧ step s = .next ({ s with input := rest } : State).takeReset) ∨
    (∃ w rest i, s.input = .command w :: rest ∧ decode w = .instr i ∧
      step s = .next (after { s with input := rest } i)) ∨
    (∃ w rest why, s.input = .command w :: rest ∧ decode w = .illegal why ∧
      step s = .next ({ s with input := rest } : State).raiseIllegal) := by
  match h : s.input with
  | [] => exact .inl ⟨rfl, step_hold h⟩
  | .reset :: rest => exact .inr (.inl ⟨rest, rfl, step_reset h⟩)
  | .command w :: rest =>
    rw [step_command h]
    cases hd : decode w with
    | instr i => exact .inr (.inr (.inl ⟨w, rest, i, rfl, hd, by rw [execWord_instr hd, exec_eq_after]⟩))
    | illegal why => exact .inr (.inr (.inr ⟨w, rest, why, rfl, hd, execWord_illegal hd _⟩))

end Sys2Proof.Machine
end

