-- ==== Sys2Proof/Laws/PerInstr.lean ====
section
/-! SUPPORT. A law of every instruction as text: its encoding belongs to its own row of the opcode table, and
carries its opcode and operand in the fields of R77. One lemma per constructor. -/

namespace Sys2Proof.Laws.EncodingRow

/-- The encoding of an instruction as a number is its opcode times `2^32` plus its operand, and under the
mask of its row of spec/opcode_table.json it is that row's bits. -/
def Statement (i : Instr) : Prop :=
  (encode i).toNat = i.opcode.toNat * 2 ^ 32 + i.arg.toNat ∧ encode i &&& i.row.mask = i.row.bits

theorem toNat_encode (i : Instr) : (encode i).toNat = i.opcode.toNat * 2 ^ 32 + i.arg.toNat :=
  toNat_cmdWord _ _

/-- Masking with `n` ones above `m` zeros drops the low `m` bits. -/
theorem and_highMask (h l m n : Nat) (hl : l < 2 ^ m) (hh : h < 2 ^ n) :
    (h * 2 ^ m + l) &&& ((2 ^ n - 1) <<< m) = h * 2 ^ m := by
  rw [← Nat.shiftLeft_eq, Nat.shiftLeft_add_eq_or_of_lt hl]
  apply Nat.eq_of_testBit_eq
  intro j
  simp only [Nat.testBit_and, Nat.testBit_or, Nat.testBit_shiftLeft, Nat.testBit_two_pow_sub_one]
  by_cases hj : m ≤ j
  · have hlow : l.testBit j = false :=
      Nat.testBit_lt_two_pow (Nat.lt_of_lt_of_le hl (Nat.pow_le_pow_right (by decide) hj))
    by_cases hn : j - m < n
    · simp [hj, hn, hlow]
    · have hhigh : h.testBit (j - m) = false :=
        Nat.testBit_lt_two_pow (Nat.lt_of_lt_of_le hh (Nat.pow_le_pow_right (by decide) (by omega)))
      simp [hhigh, hlow]
  · simp [hj]

/-- The rows of one opcode: the mask keeps `CMD[35:32]`. -/
theorem opcode_row (k : BitVec 4) (a : Word) :
    (k ++ a : CmdWord) &&& 0xF00000000#36 = (k ++ 0#32 : CmdWord) := by
  apply BitVec.eq_of_toNat_eq
  have hm : (0xF00000000#36).toNat = (2 ^ 4 - 1) <<< 32 := by decide
  rw [BitVec.toNat_and, toNat_cmdWord, toNat_cmdWord, hm, and_highMask _ _ 32 4 a.isLt k.isLt]
  simp

/-- The rows of format B: the mask keeps `CMD[35:8]`. -/
theorem byte_row (k : BitVec 4) (x : Byte) :
    (k ++ (x.setWidth 32 : Word) : CmdWord) &&& 0xFFFFFFF00#36 = (k ++ 0#32 : CmdWord) := by
  apply BitVec.eq_of_toNat_eq
  have hk := k.isLt
  have hx := x.isLt
  have hm : (0xFFFFFFF00#36).toNat = (2 ^ 28 - 1) <<< 8 := by decide
  have hs : k.toNat * 2 ^ 32 + x.toNat = (k.toNat * 2 ^ 24) * 2 ^ 8 + x.toNat := by omega
  have h := and_highMask (k.toNat * 2 ^ 24) x.toNat 8 28 hx (by omega)
  have hz : k.toNat * 2 ^ 24 * 2 ^ 8 = k.toNat * 2 ^ 32 + (0#32).toNat := by
    rw [show (0#32).toNat = 0 from rfl, Nat.add_zero, Nat.mul_assoc, ← Nat.pow_add]
  rw [BitVec.toNat_and, toNat_cmdWord, toNat_cmdWord, BitVec.toNat_setWidth_of_le (by decide), hs, hm]
  exact h.trans hz

theorem nop : Statement .nop := ⟨toNat_encode _, by decide⟩

theorem ckclr : Statement .ckclr := ⟨toNat_encode _, by decide⟩

theorem ckupd (byte : Byte) : Statement (.ckupd byte) := ⟨toNat_encode _, byte_row 0x2#4 byte⟩

theorem ckrd : Statement .ckrd := ⟨toNat_encode _, by decide⟩

theorem setbaud (word : Word) : Statement (.setbaud word) := ⟨toNat_encode _, opcode_row 0x4#4 word⟩

theorem clrbaud : Statement .clrbaud := ⟨toNat_encode _, by decide⟩

theorem start (word : Word) : Statement (.start word) := ⟨toNat_encode _, opcode_row 0x6#4 word⟩

theorem push (byte : Byte) : Statement (.push byte) := ⟨toNat_encode _, byte_row 0x7#4 byte⟩

theorem strd : Statement .strd := ⟨toNat_encode _, by decide⟩

theorem errclr : Statement .errclr := ⟨toNat_encode _, by decide⟩

theorem reservedA (arg : Word) : Statement (.reservedA arg) := ⟨toNat_encode _, opcode_row 0xA#4 arg⟩

theorem reservedB (arg : Word) : Statement (.reservedB arg) := ⟨toNat_encode _, opcode_row 0xB#4 arg⟩

theorem reservedC (arg : Word) : Statement (.reservedC arg) := ⟨toNat_encode _, opcode_row 0xC#4 arg⟩

theorem reservedD (arg : Word) : Statement (.reservedD arg) := ⟨toNat_encode _, opcode_row 0xD#4 arg⟩

theorem reservedE (arg : Word) : Statement (.reservedE arg) := ⟨toNat_encode _, opcode_row 0xE#4 arg⟩

theorem reservedF (arg : Word) : Statement (.reservedF arg) := ⟨toNat_encode _, opcode_row 0xF#4 arg⟩

end Sys2Proof.Laws.EncodingRow
end

