-- ==== Sys2Proof/Laws/Stream.lean ====
section
/-! SUPPORT. What appending one element to the history does to its segments, runs, datagrams and the bytes in
progress (R60). -/

namespace Sys2Proof.Machine

theorem segmentsFrom_ne_nil (acc : List Beat) (o : List OutElem) : segmentsFrom acc o ≠ [] := by
  induction o generalizing acc with
  | nil => simp [segmentsFrom]
  | cons x o ih => cases x <;> simp [segmentsFrom, ih]

theorem segmentsFrom_append_rst (acc : List Beat) (o : List OutElem) :
    segmentsFrom acc (o ++ [.rst]) = segmentsFrom acc o ++ [[]] := by
  induction o generalizing acc with
  | nil => rfl
  | cons x o ih => cases x <;> simp [segmentsFrom, ih]

theorem segmentsFrom_append_beat (acc : List Beat) (o : List OutElem) (b : Beat) :
    segmentsFrom acc (o ++ [.beat b]) =
      (segmentsFrom acc o).dropLast ++ [(segmentsFrom acc o).getLastD [] ++ [b]] := by
  induction o generalizing acc with
  | nil => simp [segmentsFrom]
  | cons x o ih =>
    cases x with
    | beat c => simpa [segmentsFrom] using ih (acc ++ [c])
    | rst =>
      have h := segmentsFrom_ne_nil [] o
      simp only [List.cons_append, segmentsFrom, ih, List.dropLast_cons_of_ne_nil h]
      cases hs : segmentsFrom [] o with
      | nil => exact absurd hs h
      | cons y ys => simp

theorem segments_split (o : List OutElem) : segments o = (segments o).dropLast ++ [lastSegment o] := by
  have h : segments o ≠ [] := segmentsFrom_ne_nil [] o
  have hl : lastSegment o = (segments o).getLast h := by
    simp [lastSegment, List.getLastD_eq_getLast?, List.getLast?_eq_some_getLast h]
  rw [hl, List.dropLast_append_getLast h]

@[simp] theorem lastSegment_nil : lastSegment [] = [] := rfl

@[simp] theorem lastSegment_append_rst (o : List OutElem) : lastSegment (o ++ [.rst]) = [] := by
  simp [lastSegment, segments, segmentsFrom_append_rst]

@[simp] theorem lastSegment_append_beat (o : List OutElem) (b : Beat) :
    lastSegment (o ++ [.beat b]) = lastSegment o ++ [b] := by
  simp [lastSegment, segments, segmentsFrom_append_beat]

theorem runsFrom_append (acc s : List Beat) (b : Beat) :
    runsFrom acc (s ++ [b]) =
      if b.last then ((runsFrom acc s).1 ++ [(runsFrom acc s).2 ++ [b]], [])
      else ((runsFrom acc s).1, (runsFrom acc s).2 ++ [b]) := by
  induction s generalizing acc with
  | nil => simp [runsFrom]
  | cons c s ih => by_cases hc : c.last <;> by_cases hb : b.last <;> simp [runsFrom, hc, hb, ih]

theorem runs_append (s : List Beat) (b : Beat) :
    runs (s ++ [b]) =
      if b.last then ((runs s).1 ++ [(runs s).2 ++ [b]], []) else ((runs s).1, (runs s).2 ++ [b]) :=
  runsFrom_append [] s b

@[simp] theorem datagrams_nil : datagrams [] = [] := rfl

@[simp] theorem inProgress_nil : inProgress [] = [] := rfl

theorem segments_append_beat (o : List OutElem) (b : Beat) :
    segments (o ++ [.beat b]) = (segments o).dropLast ++ [lastSegment o ++ [b]] :=
  segmentsFrom_append_beat [] o b

theorem segments_append_rst (o : List OutElem) : segments (o ++ [.rst]) = segments o ++ [[]] :=
  segmentsFrom_append_rst [] o

theorem datagrams_split (o : List OutElem) :
    datagrams o = ((segments o).dropLast.flatMap fun s => (runs s).1.map dataOf) ++
      (runs (lastSegment o)).1.map dataOf := by
  rw [datagrams, segments_split o]
  simp

@[simp] theorem datagrams_append_rst (o : List OutElem) : datagrams (o ++ [.rst]) = datagrams o := by
  simp [datagrams, segments_append_rst, runs, runsFrom]

@[simp] theorem inProgress_append_rst (o : List OutElem) : inProgress (o ++ [.rst]) = [] := by
  simp [inProgress, runs, runsFrom, dataOf]

@[simp] theorem datagrams_append_beat (o : List OutElem) (d : Byte) :
    datagrams (o ++ [.beat ⟨d, false⟩]) = datagrams o := by
  rw [datagrams_split o, datagrams, segments_append_beat]
  simp [runs_append]

@[simp] theorem inProgress_append_beat (o : List OutElem) (d : Byte) :
    inProgress (o ++ [.beat ⟨d, false⟩]) = inProgress o ++ [d] := by
  simp [inProgress, runs_append, dataOf]

@[simp] theorem datagrams_append_last (o : List OutElem) (d : Byte) :
    datagrams (o ++ [.beat ⟨d, true⟩]) = datagrams o ++ [inProgress o ++ [d]] := by
  rw [datagrams_split o, datagrams, segments_append_beat]
  simp [runs_append, inProgress, dataOf]

@[simp] theorem inProgress_append_last (o : List OutElem) (d : Byte) :
    inProgress (o ++ [.beat ⟨d, true⟩]) = [] := by
  simp [inProgress, runs_append, dataOf]

theorem lastSegment_append_beats (o : List OutElem) (ds : List Byte) :
    lastSegment (o ++ ds.map fun d => .beat ⟨d, false⟩) = lastSegment o ++ ds.map fun d => ⟨d, false⟩ := by
  induction ds generalizing o with
  | nil => simp
  | cons d ds ih => rw [List.map_cons, List.append_cons, ih]; simp

theorem datagrams_append_beats (o : List OutElem) (ds : List Byte) :
    datagrams (o ++ ds.map fun d => .beat ⟨d, false⟩) = datagrams o := by
  induction ds generalizing o with
  | nil => simp
  | cons d ds ih => rw [List.map_cons, List.append_cons, ih]; simp

theorem inProgress_append_beats (o : List OutElem) (ds : List Byte) :
    inProgress (o ++ ds.map fun d => .beat ⟨d, false⟩) = inProgress o ++ ds := by
  induction ds generalizing o with
  | nil => simp
  | cons d ds ih => rw [List.map_cons, List.append_cons, ih]; simp

/-- The beats of a packet: all but the final byte with last flag 0, then the final byte with last flag 1. -/
theorem packetBeats_append (ds : List Byte) (d : Byte) :
    packetBeats (ds ++ [d]) = (ds.map fun x => .beat ⟨x, false⟩) ++ [.beat ⟨d, true⟩] := by
  induction ds with
  | nil => rfl
  | cons e es ih => cases es <;> simp_all [packetBeats]

end Sys2Proof.Machine
end

