-- ==== Sys2Proof/Machine/Written.lean ====
section
/-! DEFINITION. The written form of commands and responses (R83): lines read, commands, words and responses
written. It is not part of the block; lines are lists of characters. -/

namespace Sys2Proof.Machine

/-- The value of a hexadecimal digit. -/
def hexValue (c : Char) : Option Nat :=
  if '0' ≤ c ∧ c ≤ '9' then some (c.toNat - 48)
  else if 'A' ≤ c ∧ c ≤ 'F' then some (c.toNat - 55)
  else if 'a' ≤ c ∧ c ≤ 'f' then some (c.toNat - 87)
  else none

/-- The number some digits write in a base, most significant first, after the value `acc`. -/
def digitsFrom (base acc : Nat) : List Char → Option Nat
  | [] => some acc
  | c :: cs =>
    match hexValue c with
    | some d => if d < base then digitsFrom base (acc * base + d) cs else none
    | none => none

/-- An operand: decimal, `0x` hexadecimal, or a character in single quotes; the flag says it was a character,
which only a byte operand may be (R83). DESIGN CHOICE (log 5): a quoted character stands for its Unicode code
point, so one above 255 is no byte operand; R83 gives only `'A'` as 0x41. -/
def readOperand : List Char → Option (Nat × Bool)
  | ['\'', c, '\''] => some (c.toNat, true)
  | '0' :: 'x' :: c :: cs => (digitsFrom 16 0 (c :: cs)).map (·, false)
  | c :: cs => (digitsFrom 10 0 (c :: cs)).map (·, false)
  | [] => none

/-- A line without its comment: `;` starts one, except as a quoted character (log 5). -/
def stripComment : List Char → List Char
  | '\'' :: c :: '\'' :: t => '\'' :: c :: '\'' :: stripComment t
  | ';' :: _ => []
  | c :: t => c :: stripComment t
  | [] => []

/-- A list without the spaces at both its ends. -/
def trimSpaces (l : List Char) : List Char :=
  ((l.dropWhile (· == ' ')).reverse.dropWhile (· == ' ')).reverse

/-- The mnemonic of a line and its operand. -/
def splitLine (l : List Char) : List Char × List Char :=
  ((trimSpaces (stripComment l)).takeWhile (· != ' '),
   trimSpaces ((trimSpaces (stripComment l)).dropWhile (· != ' ')))

/-- A command of format Z takes no operand. -/
def readZ (i : Instr) (operand : List Char) : Option Instr := if operand = [] then some i else none

/-- A byte operand is 0 to 255. -/
def readB (f : Byte → Instr) (operand : List Char) : Option Instr :=
  match readOperand operand with
  | some (v, _) => if v < 2 ^ 8 then some (f (BitVec.ofNat 8 v)) else none
  | none => none

/-- A word operand is a number of 32 bits, not a character. -/
def readW (f : Word → Instr) (operand : List Char) : Option Instr :=
  match readOperand operand with
  | some (v, false) => if v < 2 ^ 32 then some (f (BitVec.ofNat 32 v)) else none
  | _ => none

/-- One line of R83: a mnemonic followed by its operand. The reserved opcodes have no written form. -/
def readCommand (l : List Char) : Option Instr :=
  let m := (splitLine l).1
  let a := (splitLine l).2
  if m = "NOP".toList then readZ .nop a
  else if m = "CKCLR".toList then readZ .ckclr a
  else if m = "CKUPD".toList then readB .ckupd a
  else if m = "CKRD".toList then readZ .ckrd a
  else if m = "SETBAUD".toList then readW .setbaud a
  else if m = "CLRBAUD".toList then readZ .clrbaud a
  else if m = "START".toList then readW .start a
  else if m = "PUSH".toList then readB .push a
  else if m = "STRD".toList then readZ .strd a
  else if m = "ERRCLR".toList then readZ .errclr a
  else none

/-- The low `n` hexadecimal digits of a number, most significant first. -/
def hexDigits : Nat → Nat → List Char
  | 0, _ => []
  | n + 1, v => hexDigits n (v / 16) ++ [Nat.digitChar (v % 16)].map Char.toUpper

/-- A command's encoding as nine hexadecimal digits, opcode digit first (R83). -/
def wordText (w : CmdWord) : List Char := "0x".toList ++ hexDigits 9 w.toNat

/-- The name of a response code (R160). -/
def RspCode.name : RspCode → String
  | .ok => "OK"
  | .err .invalidConfiguration => "InvalidConfiguration"
  | .err .payloadTooLarge => "PayloadTooLarge"
  | .err .busy => "Busy"
  | .err .sequence => "Sequence"
  | .err .illegalCommand => "IllegalCommand"

/-- A response as `code:data`, the data as eight hexadecimal digits (R83). -/
def Response.text (r : Response) : List Char :=
  r.code.name.toList ++ ":0x".toList ++ hexDigits 8 r.data.toNat

/-- A command as its mnemonic and operand, byte operands in hexadecimal and word operands in decimal (R83). -/
def commandText (i : Instr) : List Char :=
  match i.format with
  | .b => i.row.mnemonic.toList ++ " 0x".toList ++ hexDigits 2 i.arg.toNat
  | .w => i.row.mnemonic.toList ++ [' '] ++ Nat.toDigits 10 i.arg.toNat
  | .z => i.row.mnemonic.toList
  | .reserved => wordText (encode i)

end Sys2Proof.Machine
end

