-- ==== Sys2Proof/Tests/Slice0.lean ====
section
/-! SUPPORT. Small tests of one step each, with results from spec/95_test_vectors.md (E, V and P numbers), and a
witness for the hypotheses of each statement. -/

namespace Sys2Proof.Tests

open Sys2Proof Sys2Proof.Machine

/-! ### Test states -/

/-- Idle, baud rate 9600 known. -/
def idle : State := { State.reset with baud := 9600#32, baudKnown := true }

/-- A packet in progress with `r` bytes to come, baud rate 9600; the pair is that of V35. -/
def busyWith (r : Half) : State := { idle with rem := r, ckA := 0xA7#8, ckB := 0x7B#8 }

/-- Idle, every error flag set. -/
def flagged : State := { State.reset with err := 0b11111#5 }

/-- One event presented. -/
def facing (s : State) (e : HostEvent) : State := { s with input := [e] }

/-- One command word presented. -/
def facingWord (s : State) (w : CmdWord) : State := facing s (.command w)

/-- The state a step or a command ends in; the state given where it stops. -/
def ended (s : State) : Result → State
  | .next t => t
  | .fault _ => s
  | .refused _ => s

/-- The state after one command word. -/
def stepOn (s : State) (w : CmdWord) : State := ended s (step (facingWord s w))

/-- The last response of a state. -/
def answer (s : State) : Option Response := s.responses.getLast?

/-- Beats with last flag 0. -/
def plain (ds : List Byte) : List OutElem := ds.map fun d => .beat ⟨d, false⟩

/-- The eight header bytes of V34, V35 and V20 after the length field's low byte. -/
def header9600 (lo hi : Byte) : List Byte := [0xB5#8, 0x62#8, lo, hi, 0x80#8, 0x25#8, 0x00#8, 0x00#8]

/-! ### Well-formedness -/

/-- The only check of WellFormed is the opcode: each reserved one is refused, each of the ten accepted. -/
theorem test_wellFormed_refuses_reserved :
    Instr.wellFormed (.reservedA 0#32) = false ∧ Instr.wellFormed (.reservedB 1#32) = false ∧
    Instr.wellFormed (.reservedC 0#32) = false ∧ Instr.wellFormed (.reservedD 0#32) = false ∧
    Instr.wellFormed (.reservedE 0#32) = false ∧ Instr.wellFormed (.reservedF 0x12345678#32) = false := by
  decide

theorem test_wellFormed_accepts_commands :
    Instr.wellFormed .nop = true ∧ Instr.wellFormed .ckclr = true ∧ Instr.wellFormed (.ckupd 0xFF#8) = true ∧
    Instr.wellFormed .ckrd = true ∧ Instr.wellFormed (.setbaud 0#32) = true ∧
    Instr.wellFormed .clrbaud = true ∧ Instr.wellFormed (.start 65536#32) = true ∧
    Instr.wellFormed (.push 0#8) = true ∧ Instr.wellFormed .strd = true ∧
    Instr.wellFormed .errclr = true := by
  decide

/-! ### Decoding: words written out from R77 and R78 (opcode, must-be-0 bits, operand) -/

theorem test_decode_nop : decode (0b0000#4 ++ 0#32) = .instr .nop := by decide

theorem test_decode_ckclr : decode (0b0001#4 ++ 0#32) = .instr .ckclr := by decide

theorem test_decode_ckupd : decode (0b0010#4 ++ 0#24 ++ 0b01010101#8) = .instr (.ckupd 0x55#8) := by decide

theorem test_decode_ckrd : decode (0b0011#4 ++ 0#32) = .instr .ckrd := by decide

theorem test_decode_setbaud :
    decode (0b0100#4 ++ 0b00000000000000000010010110000000#32) = .instr (.setbaud 9600#32) := by decide

theorem test_decode_clrbaud : decode (0b0101#4 ++ 0#32) = .instr .clrbaud := by decide

theorem test_decode_start :
    decode (0b0110#4 ++ 0b00000000000000010001000101110000#32) = .instr (.start 70000#32) := by decide

theorem test_decode_push : decode (0b0111#4 ++ 0#24 ++ 0b01000001#8) = .instr (.push 0x41#8) := by decide

theorem test_decode_strd : decode (0b1000#4 ++ 0#32) = .instr .strd := by decide

theorem test_decode_errclr : decode (0b1001#4 ++ 0#32) = .instr .errclr := by decide

/-- V53, V54: a reserved opcode, with operand bits and without. -/
theorem test_decode_reserved :
    decode 0xA00000000#36 = .instr (.reservedA 0#32) ∧ decode 0xB00000001#36 = .instr (.reservedB 1#32) ∧
    decode 0xC80000000#36 = .instr (.reservedC 0x80000000#32) ∧
    decode 0xD00000100#36 = .instr (.reservedD 0x100#32) ∧
    decode 0xE0000FFFF#36 = .instr (.reservedE 0xFFFF#32) ∧
    decode 0xF12345678#36 = .instr (.reservedF 0x12345678#32) := by
  decide

/-- V55 to V60: a 1 in a must-be-0 bit; the lowest and the highest such bit. -/
theorem test_decode_illegal :
    decode 0x000000001#36 = .illegal (.operandNotZero 0x0#4) ∧
    decode 0x180000000#36 = .illegal (.operandNotZero 0x1#4) ∧
    decode 0x200000100#36 = .illegal (.byteOperandTooWide 0x2#4) ∧
    decode 0x300000001#36 = .illegal (.operandNotZero 0x3#4) ∧
    decode 0x500000001#36 = .illegal (.operandNotZero 0x5#4) ∧
    decode 0x780000000#36 = .illegal (.byteOperandTooWide 0x7#4) ∧
    decode 0x800000001#36 = .illegal (.operandNotZero 0x8#4) ∧
    decode 0x900000001#36 = .illegal (.operandNotZero 0x9#4) := by
  decide

/-- The words of P1 and P3, encoded. -/
theorem test_encode :
    encode (.setbaud 9600#32) = 0x400002580#36 ∧ encode (.start 65536#32) = 0x600010000#36 ∧
    encode (.push 0x41#8) = 0x700000041#36 ∧ encode (.ckupd 0x55#8) = 0x200000055#36 ∧
    encode .ckrd = 0x300000000#36 ∧ encode .strd = 0x800000000#36 ∧ encode .errclr = 0x900000000#36 := by
  decide

/-- The host's numbering is `CMD`'s own; a number with a bit above bit 35 is no command word. -/
theorem test_decodeTableWord :
    decodeTableWord 40 0x700000041 = some (.push 0x41#8) ∧ decodeTableWord 40 0x7000001FF = none ∧
    decodeTableWord 36 0xF00000000 = some (.reservedF 0#32) ∧ decodeTableWord 40 0x1000000000 = none := by
  decide

theorem test_withFetchWord :
    (ended idle (step (idle.withFetchWord 40 0x400000001))).baud = 1#32 := by decide

/-! ### The checksum function -/

/-- V12: modulo 256, not 255 (X3). -/
theorem test_fletcher8_abcde : fletcher8 [0x61#8, 0x62#8, 0x63#8, 0x64#8, 0x65#8] = (0xEF#8, 0xC3#8) := by
  decide

/-- E2: the source's example, with the pair worked out by hand in the spec. -/
theorem test_fletcher8_source :
    fletcher8 [0x01#8, 0x00#8, 0x80#8, 0x25#8, 0x00#8, 0x00#8, 0x41#8] = (0xE7#8, 0x5C#8) := by decide

/-- V19: the second sum takes the new first sum (X4), and each wraps. -/
theorem test_ckStep :
    ckStep (0x7F#8, 0x00#8) 0x01#8 = (0x80#8, 0x80#8) ∧ ckStep (0xFF#8, 0xFF#8) 0xFF#8 = (0xFE#8, 0xFD#8) ∧
    ckStep (0x01#8, 0xFF#8) 0x00#8 = (0x01#8, 0x00#8) := by
  decide

/-- E2: the whole packet; X5 and X6 would give other bytes. -/
theorem test_encodePacket_source :
    encodePacket [0x41#8] (some 9600#32) =
      .ok (header9600 0x01#8 0x00#8 ++ [0x41#8, 0xE7#8, 0x5C#8]) := by rfl

/-- V33: a baud rate with four different bytes. -/
theorem test_encodePacket_byte_order :
    encodePacket [0x41#8] (some 0x01020304#32) =
      .ok [0xB5#8, 0x62#8, 0x01#8, 0x00#8, 0x04#8, 0x03#8, 0x02#8, 0x01#8, 0x41#8, 0x4C#8, 0x70#8] := by rfl

/-! ### One step of each command -/

/-- V62. -/
theorem test_nop_changes_nothing :
    stepOn (busyWith 2#16) 0x000000000#36 = { busyWith 2#16 with responses := [⟨.ok, 0#32⟩] } := by decide

/-- V55. -/
theorem test_nop_with_operand :
    stepOn idle 0x000000001#36 =
      { idle with err := 0b10000#5, responses := [⟨.err .illegalCommand, 0#32⟩] } := by decide

/-- V48. -/
theorem test_ckclr_busy :
    stepOn (busyWith 2#16) 0x100000000#36 =
      { busyWith 2#16 with err := 0b00100#5, responses := [⟨.err .busy, 0#32⟩] } := by decide

/-- P8 step 6. -/
theorem test_ckclr_idle :
    let t := stepOn { idle with ckA := 0xA6#8, ckB := 0x15#8 } 0x100000000#36
    t.ckA = 0#8 ∧ t.ckB = 0#8 ∧ t.baud = 9600#32 := by decide

/-- V65: a zero byte still adds the first sum to the second. -/
theorem test_ckupd_zero_byte :
    let t := stepOn { idle with ckA := 0xE7#8, ckB := 0x5C#8 } 0x200000000#36
    t.ckA = 0xE7#8 ∧ t.ckB = 0x43#8 ∧ t.out = [] := by decide

/-- V57. -/
theorem test_ckupd_wide_operand :
    stepOn State.reset 0x200000100#36 =
      { State.reset with err := 0b10000#5, responses := [⟨.err .illegalCommand, 0#32⟩] } := by decide

/-- V50: allowed while busy; `CK_B` in the high byte. -/
theorem test_ckrd_busy :
    stepOn (busyWith 2#16) 0x300000000#36 =
      { busyWith 2#16 with responses := [⟨.ok, 0x00007BA7#32⟩] } := by decide

/-- V61: 0 is stored and marked known. -/
theorem test_setbaud_zero :
    stepOn State.reset 0x400000000#36 =
      { State.reset with baudKnown := true, responses := [⟨.ok, 0#32⟩] } := by decide

/-- P6 step 4: allowed while busy. -/
theorem test_setbaud_busy :
    let t := stepOn (busyWith 1#16) 0x4000012C0#36
    t.baud = 4800#32 ∧ t.baudKnown = true ∧ t.rem = 1#16 := by decide

/-- P3 step 13. -/
theorem test_clrbaud_busy :
    stepOn (busyWith 1#16) 0x500000000#36 =
      { busyWith 1#16 with baud := 0#32, baudKnown := false, responses := [⟨.ok, 0#32⟩] } := by decide

/-- V34. -/
theorem test_start_one :
    let t := stepOn idle 0x600000001#36
    t.out = plain (header9600 0x01#8 0x00#8) ∧ t.ckA = 0xA6#8 ∧ t.ckB = 0x75#8 ∧ t.rem = 1#16 := by decide

/-- V20: the empty payload completes inside START (X8). -/
theorem test_start_zero :
    let t := stepOn idle 0x600000000#36
    t.out = plain (header9600 0x00#8 0x00#8 ++ [0xA5#8]) ++ [.beat ⟨0x6F#8, true⟩] ∧ t.rem = 0#16 := by decide

/-- V39 and V44: the largest accepted length. -/
theorem test_start_largest :
    let t := stepOn idle 0x60000FFFF#36
    t.rem = 65535#16 ∧ t.ckA = 0xA3#8 ∧ t.ckB = 0x64#8 ∧ answer t = some ⟨.ok, 0#32⟩ := by decide

/-- V43, V45: the smallest refused length and the largest operand (X7). -/
theorem test_start_too_large :
    stepOn idle 0x600010000#36 =
      { idle with err := 0b00010#5, responses := [⟨.err .payloadTooLarge, 0#32⟩] } ∧
    (stepOn idle 0x6FFFFFFFF#36).rem = 0#16 := by decide

/-- V41, V46: baud rate 0 known; both constraints violated. -/
theorem test_start_invalid_configuration :
    answer (stepOn { idle with baud := 0#32 } 0x600000001#36) = some ⟨.err .invalidConfiguration, 0#32⟩ ∧
    (stepOn State.reset 0x600011170#36).err = 0b00001#5 := by decide

/-- V47: `Busy` comes first. -/
theorem test_start_busy :
    stepOn { busyWith 2#16 with baud := 0#32, baudKnown := false } 0x600011170#36 =
      { busyWith 2#16 with
        baud := 0#32, baudKnown := false, err := 0b00100#5, responses := [⟨.err .busy, 0#32⟩] } := by
  decide

/-- P1 step 3: the last PUSH of the source's packet. -/
theorem test_push_last :
    let t := stepOn { busyWith 1#16 with ckA := 0xA6#8, ckB := 0x75#8 } 0x700000041#36
    t.out = plain [0x41#8, 0xE7#8] ++ [.beat ⟨0x5C#8, true⟩] ∧ t.ckA = 0xE7#8 ∧ t.ckB = 0x5C#8 ∧
      t.rem = 0#16 := by decide

/-- P5 step 3. -/
theorem test_push_more :
    let t := stepOn (busyWith 2#16) 0x700000041#36
    t.out = plain [0x41#8] ∧ t.ckA = 0xE8#8 ∧ t.ckB = 0x63#8 ∧ t.rem = 1#16 := by decide

/-- V52, V58, V59. -/
theorem test_push_fails :
    stepOn idle 0x700000041#36 =
      { idle with err := 0b01000#5, responses := [⟨.err .sequence, 0#32⟩] } ∧
    stepOn (busyWith 1#16) 0x7000001FF#36 =
      { busyWith 1#16 with err := 0b10000#5, responses := [⟨.err .illegalCommand, 0#32⟩] } ∧
    (stepOn idle 0x7000001FF#36).err = 0b10000#5 := by decide

/-- V63, V68, V70, V72. -/
theorem test_strd :
    answer (stepOn flagged 0x800000000#36) = some ⟨.ok, 0x1F000000#32⟩ ∧
    answer (stepOn (busyWith 3#16) 0x800000000#36) = some ⟨.ok, 0x00030003#32⟩ ∧
    answer (stepOn (busyWith 65535#16) 0x800000000#36) = some ⟨.ok, 0x0003FFFF#32⟩ ∧
    answer (stepOn { idle with err := 0b01100#5 } 0x800000000#36) = some ⟨.ok, 0x0C020000#32⟩ := by decide

/-- V66. -/
theorem test_strd_after_reset :
    stepOn State.reset 0x800000000#36 = { State.reset with responses := [⟨.ok, 0#32⟩] } := by decide

/-- V64 and, from V60, the illegal word that clears nothing. -/
theorem test_errclr :
    stepOn flagged 0x900000000#36 = { State.reset with responses := [⟨.ok, 0#32⟩] } ∧
    (stepOn flagged 0x900000001#36).err = 0b11111#5 := by decide

/-- V53, V54, P7. -/
theorem test_reserved :
    stepOn (busyWith 2#16) 0xA00000000#36 =
      { busyWith 2#16 with err := 0b10000#5, responses := [⟨.err .illegalCommand, 0#32⟩] } ∧
    answer (stepOn idle 0xB00000000#36) = some ⟨.err .illegalCommand, 0#32⟩ ∧
    answer (stepOn idle 0xC00000000#36) = some ⟨.err .illegalCommand, 0#32⟩ ∧
    answer (stepOn idle 0xD00000000#36) = some ⟨.err .illegalCommand, 0#32⟩ ∧
    answer (stepOn idle 0xE00000000#36) = some ⟨.err .illegalCommand, 0#32⟩ ∧
    answer (stepOn idle 0xF12345678#36) = some ⟨.err .illegalCommand, 0#32⟩ := by decide

/-- P5 step 4: the reset event in mid-packet; no response. -/
theorem test_reset_event :
    ended State.reset (step (facing { busyWith 1#16 with out := plain [0x41#8] } .reset)) =
      { State.reset with out := plain [0x41#8] ++ [.rst] } := by decide

/-- The history of P5 is cut into E2's one datagram. -/
theorem test_datagrams_reset :
    datagrams (plain (header9600 0x02#8 0x00#8 ++ [0x41#8]) ++ [.rst] ++
        plain (header9600 0x01#8 0x00#8 ++ [0x41#8, 0xE7#8]) ++ [.beat ⟨0x5C#8, true⟩]) =
      [header9600 0x01#8 0x00#8 ++ [0x41#8, 0xE7#8, 0x5C#8]] := by decide

/-- R81's data and code in one word, and R82's last flag in bit 8. -/
theorem test_port_words :
    Response.word ⟨.ok, 0x00005CE7#32⟩ = 0x000005CE7#36 ∧ Response.word ⟨.err .busy, 0#32⟩ = 0x300000000#36 ∧
    Beat.word ⟨0x5C#8, true⟩ = 0x15C#9 ∧ Beat.word ⟨0x41#8, false⟩ = 0x041#9 := by decide

/-! ### The written form (R83) -/

theorem test_readCommand :
    readCommand "SETBAUD 9600".toList = some (.setbaud 9600#32) ∧
    readCommand "PUSH 'A'".toList = some (.push 0x41#8) ∧
    readCommand "PUSH 0x41 ; a byte".toList = some (.push 0x41#8) ∧
    readCommand "CKRD".toList = some .ckrd ∧ readCommand "CKRD 1".toList = none ∧
    readCommand "PUSH 256".toList = none := by decide

theorem test_written_words :
    wordText 0x400002580#36 = "0x400002580".toList ∧
    Response.text ⟨.ok, 0x00005CE7#32⟩ = "OK:0x00005CE7".toList ∧
    Response.text ⟨.err .busy, 0#32⟩ = "Busy:0x00000000".toList ∧
    commandText (.push 0x41#8) = "PUSH 0x41".toList ∧
    commandText (.setbaud 9600#32) = "SETBAUD 9600".toList := by decide

/-! ### Witnesses: a state and operands that meet the hypotheses of each statement, clause by clause -/

/-- A reset presented, idle and in mid-packet (ResetLeavesTheStatedValues, ResetAppendsOneMarker,
AbandonedPacketFormsNoDatagram, PairIsTheChecksumOfTheBytesFed). -/
theorem witness_reset_presented :
    (facing idle .reset).input = .reset :: [] ∧ (facing (busyWith 1#16) .reset).input = .reset :: [] := by
  decide

/-- The packets AbandonedPacketFormsNoDatagram and FramingTheorem speak of: the empty one and the source's. -/
theorem witness_packets :
    (encodePacket [] (some 1#32)).toOption = some [0xB5#8, 0x62#8, 0x00#8, 0x00#8, 0x01#8, 0x00#8, 0x00#8,
      0x00#8, 0x01#8, 0x04#8] ∧
    (encodePacket [0x41#8] (some 9600#32)).toOption =
      some (header9600 0x01#8 0x00#8 ++ [0x41#8, 0xE7#8, 0x5C#8]) := by decide

/-- Idle and busy, at both ends of `REM` (CkclrClearsThePairUnlessBusy, CkupdFeedsOneByteUnlessBusy). -/
theorem witness_idle_and_busy :
    idle.rem = 0#16 ∧ (busyWith 1#16).rem ≠ 0#16 ∧ (busyWith 65535#16).rem ≠ 0#16 := by decide

/-- The word clauses of the format Z commands (NopAnswersAndChangesNothing, CkclrClearsThePairUnlessBusy,
CkrdReturnsThePair, ClrbaudMarksTheRateUnresolved, StrdReturnsTheStatusWord, ErrclrClearsAllFlags): operand 0,
the lowest bit, the highest bit. -/
theorem witness_formatZ_words :
    (∀ k ∈ [0x0#4, 0x1#4, 0x3#4, 0x5#4, 0x8#4, 0x9#4], ∀ a ∈ [0#32, 1#32, 0x80000000#32],
      (facingWord idle (k ++ a)).input = .command (k ++ a) :: []) ∧
    (1#32 ≠ 0#32) ∧ (0x80000000#32 ≠ 0#32) :=
  ⟨fun _ _ _ _ => rfl, by decide, by decide⟩

/-- The word clauses of the format B commands (CkupdFeedsOneByteUnlessBusy, PushEmitsOnePayloadByte): operands
0, 255, 256 and the largest. -/
theorem witness_formatB_words :
    (∀ k ∈ [0x2#4, 0x7#4], ∀ a ∈ [0#32, 255#32, 256#32, 0xFFFFFFFF#32],
      (facingWord idle (k ++ a)).input = .command (k ++ a) :: []) ∧
    (0#32).toNat < 256 ∧ (255#32).toNat < 256 ∧ 256 ≤ (256#32).toNat ∧ 256 ≤ (0xFFFFFFFF#32).toNat :=
  ⟨fun _ _ _ _ => rfl, by decide⟩

/-- The word clauses of the format W commands (SetbaudStoresAnyValue, StartChecksThenEmitsTheHeader). -/
theorem witness_formatW_words :
    ∀ k ∈ [0x4#4, 0x6#4], ∀ a ∈ [0#32, 0xFFFFFFFF#32],
      (facingWord (busyWith 2#16) (k ++ a)).input = .command (k ++ a) :: [] := fun _ _ _ _ => rfl

/-- The five clauses of StartChecksThenEmitsTheHeader: busy; unresolved, and known but 0; lengths 65536 and
the largest; lengths 65535, 1 and 0. StartZeroEmitsTheWholePacket has the last three's hypotheses. -/
theorem witness_StartChecksThenEmitsTheHeader :
    (busyWith 1#16).rem ≠ 0#16 ∧
    (State.reset.rem = 0#16 ∧ State.reset.baudKnown = false) ∧
    (State.rem { idle with baud := 0#32 } = 0#16 ∧ State.baud { idle with baud := 0#32 } = 0#32) ∧
    (idle.rem = 0#16 ∧ idle.baudKnown = true ∧ idle.baud ≠ 0#32) ∧
    65535 < (65536#32).toNat ∧ 65535 < (0xFFFFFFFF#32).toNat ∧
    (65535#32).toNat ≤ 65535 ∧ (1#32).toNat ≤ 65535 ∧ (0#32).toNat ≤ 65535 ∧ 1#32 ≠ 0#32 := by decide

/-- The three clauses of PushEmitsOnePayloadByte, with `REM` at 2, 65535, 1 and 0. -/
theorem witness_PushEmitsOnePayloadByte :
    2 ≤ (busyWith 2#16).rem.toNat ∧ 2 ≤ (busyWith 65535#16).rem.toNat ∧ (busyWith 1#16).rem.toNat = 1 ∧
      idle.rem.toNat = 0 := by decide

/-- ReservedOpcodesFail. -/
theorem witness_ReservedOpcodesFail :
    ∃ i : Instr, i = .reservedA 0#32 ∧ exec i idle = .next { idle with
      err := 0b10000#5, responses := [⟨.err .illegalCommand, 0#32⟩] } := ⟨_, rfl, rfl⟩

/-- IllegalWordsSetIllAndNothingElse: opcodes 0xA and 0xF, a format Z word with its lowest operand bit set,
a format B word with bit 8 set. LegalWordCriterion's last clause has the last two. -/
theorem witness_IllegalWordsSetIllAndNothingElse :
    10 ≤ (0xA00000000#36).toNat / 2 ^ 32 ∧ 10 ≤ (0xFFFFFFFFF#36).toNat / 2 ^ 32 ∧
    ((0x900000001#36).toNat / 2 ^ 32 ∈ [0, 1, 3, 5, 8, 9] ∧ (0x900000001#36).toNat % 2 ^ 32 ≠ 0) ∧
    ((0x700000100#36).toNat / 2 ^ 32 ∈ [2, 7] ∧ 256 ≤ (0x700000100#36).toNat % 2 ^ 32) := by simp

theorem witness_LegalWordCriterion :
    ¬ ∃ i, decode 0x900000001#36 = .instr i ∧ i.wellFormed = true := by
  have h : decode 0x900000001#36 = .illegal (.operandNotZero 0x9#4) := by decide
  simp [h]

/-- FailedCommandSetsOneFlag: a failure of each code. -/
theorem witness_FailedCommandSetsOneFlag :
    (∃ t, step (facingWord State.reset 0x600000001#36) = .next t ∧
      t.responses = [] ++ [⟨.err .invalidConfiguration, 0#32⟩]) ∧
    (∃ t, step (facingWord idle 0x600010000#36) = .next t ∧
      t.responses = [] ++ [⟨.err .payloadTooLarge, 0#32⟩]) ∧
    (∃ t, step (facingWord (busyWith 1#16) 0x100000000#36) = .next t ∧
      t.responses = [] ++ [⟨.err .busy, 0#32⟩]) ∧
    (∃ t, step (facingWord idle 0x700000000#36) = .next t ∧
      t.responses = [] ++ [⟨.err .sequence, 0#32⟩]) ∧
    (∃ t, step (facingWord idle 0xA00000000#36) = .next t ∧
      t.responses = [] ++ [⟨.err .illegalCommand, 0#32⟩]) :=
  ⟨⟨_, rfl, by decide⟩, ⟨_, rfl, by decide⟩, ⟨_, rfl, by decide⟩, ⟨_, rfl, by decide⟩, ⟨_, rfl, by decide⟩⟩

/-- FirstFailureInOrderIsReported, and EveryCommandAnswersExactlyOnce and ResponseWordCarriesCodeAndData, whose
hypothesis is its first: a word with the numbers of its two fields, for each outcome of the order. -/
theorem witness_FirstFailureInOrderIsReported :
    (facingWord idle 0x7000001FF#36).input = .command 0x7000001FF#36 :: [] ∧
    7 = (0x7000001FF#36).toNat / 2 ^ 32 ∧ 511 = (0x7000001FF#36).toNat % 2 ^ 32 ∧
    6 = (0x600011170#36).toNat / 2 ^ 32 ∧ 70000 = (0x600011170#36).toNat % 2 ^ 32 ∧
    15 = (0xFFFFFFFFF#36).toNat / 2 ^ 32 ∧ 0 = (0x000000000#36).toNat / 2 ^ 32 := by
  simp [facingWord, facing]

/-- FlagsAreStickyAndGateNothing: a success that is no ERRCLR, a failure, and a run. -/
theorem witness_FlagsAreStickyAndGateNothing :
    (∃ t, exec .nop flagged = .next t ∧ t.responses = [] ++ [⟨.ok, 0#32⟩]) ∧ Instr.nop ≠ .errclr ∧
    (∃ t, exec (.push 0#8) idle = .next t ∧ t.responses = [] ++ [⟨.err .sequence, 0#32⟩]) ∧
    (∃ t, execAll [.nop, .strd] idle = .next t) :=
  ⟨⟨_, rfl, by decide⟩, by decide, ⟨_, rfl, by decide⟩, ⟨_, rfl⟩⟩

/-- BeatsCarryTheLastFlag: the packet of the source. -/
theorem witness_BeatsCarryTheLastFlag :
    ∃ d, encodePacket [0x41#8] (some 9600#32) = .ok d ∧ d.length = 9 + 1 + 1 := ⟨_, rfl, by decide⟩

/-- CommandsKeepToTheAccessMatrix: for each register, a command that changes it, and one that is no reader of
it. -/
theorem witness_CommandsKeepToTheAccessMatrix :
    (∃ t, exec (.ckupd 1#8) idle = .next t ∧ (t.ckA, t.ckB) ≠ (idle.ckA, idle.ckB)) ∧
    (∃ t, exec (.start 1#32) idle = .next t ∧ t.rem ≠ idle.rem ∧ t.out ≠ idle.out) ∧
    (∃ t, exec .clrbaud idle = .next t ∧ (t.baud, t.baudKnown) ≠ (idle.baud, idle.baudKnown)) ∧
    (∃ t, exec (.push 1#8) idle = .next t ∧ t.err ≠ idle.err) ∧
    ((∀ x, Instr.start 1#32 ≠ .ckupd x) ∧ Instr.start 1#32 ≠ .ckrd ∧ (∀ x, Instr.start 1#32 ≠ .push x)) ∧
    (Instr.nop ≠ .ckclr ∧ (∀ x, Instr.nop ≠ .ckupd x) ∧ (∀ n, Instr.nop ≠ .start n) ∧
      (∀ x, Instr.nop ≠ .push x) ∧ Instr.nop ≠ .strd) :=
  ⟨⟨_, rfl, by decide⟩, ⟨_, rfl, by decide, by decide⟩, ⟨_, rfl, by decide⟩, ⟨_, rfl, by decide⟩,
    by simp, by simp⟩

/-- OnlyStartAndPushMoveRem: `REM` from 0 to 1 and from 0 to 65535; from 1 to 0 and from 65535 down; a failed
command; and the two steps that move it while busy. -/
theorem witness_OnlyStartAndPushMoveRem :
    (∃ t, exec (.start 1#32) idle = .next t ∧ idle.rem = 0#16 ∧ t.rem ≠ 0#16) ∧
    (∃ t, exec (.start 65535#32) idle = .next t ∧ t.rem ≠ 0#16) ∧
    (∃ t, exec (.push 0#8) (busyWith 1#16) = .next t ∧ (busyWith 1#16).rem ≠ 0#16 ∧ t.rem ≠ 1#16) ∧
    (∃ t, exec (.push 0#8) (busyWith 65535#16) = .next t ∧ t.rem ≠ 65535#16) ∧
    (∃ t, exec .ckclr (busyWith 1#16) = .next t ∧ t.responses.getLast? = some ⟨.err .busy, 0#32⟩) ∧
    (∃ t, step (facing (busyWith 1#16) .reset) = .next t ∧ t.rem ≠ (busyWith 1#16).rem) ∧
    (∃ t, step (facingWord (busyWith 2#16) 0x700000041#36) = .next t ∧ t.rem ≠ (busyWith 2#16).rem) :=
  ⟨⟨_, rfl, by decide, by decide⟩, ⟨_, rfl, by decide⟩, ⟨_, rfl, by decide, by decide⟩,
    ⟨_, rfl, by decide⟩, ⟨_, rfl, by decide⟩, ⟨_, rfl, by decide⟩, ⟨_, rfl, by decide⟩⟩

/-- EncodeOfDecode: the largest word, which decodes. -/
theorem witness_EncodeOfDecode : decode 0xFFFFFFFFF#36 = .instr (.reservedF 0xFFFFFFFF#32) := by decide

/-- StepRunsTheDecodedCommand: its four clauses. -/
theorem witness_StepRunsTheDecodedCommand :
    ((facingWord idle 0x700000041#36).input = .command 0x700000041#36 :: [] ∧
      decode 0x700000041#36 = .instr (.push 0x41#8)) ∧
    ((facingWord idle 0x700000100#36).input = .command 0x700000100#36 :: [] ∧
      decode 0x700000100#36 = .illegal (.byteOperandTooWide 0x7#4)) ∧
    (facing idle .reset).input = .reset :: [] ∧ idle.input = [] := by decide

theorem witness_FetchWordIsTheNextCommand : decodeTableWord 40 0x60000FFFF = some (.start 65535#32) := by
  decide

/-- RunOfCommandsIsTheFold: no command, and two. -/
theorem witness_RunOfCommandsIsTheFold :
    idle.input = ([] : List Instr).map (fun i => HostEvent.command (encode i)) ∧
    State.input { idle with input := [.command 0x400000001#36, .command 0x600000000#36] } =
      [Instr.setbaud 1#32, Instr.start 0#32].map (fun i => HostEvent.command (encode i)) := by decide

/-- StandAloneChecksumContract: no bytes, and one with other commands around it; without ERRCLR, SETBAUD and
CLRBAUD, and with. -/
theorem witness_StandAloneChecksumContract :
    idle.rem = 0#16 ∧ ([] : List Instr).filterMap ckupdByte = [] ∧
    (∀ i ∈ [Instr.strd, .ckupd 0xFF#8, .nop],
      inspects i = true ∨ setsBaud i = true ∨ ∃ x, i = .ckupd x) ∧
    [Instr.strd, .ckupd 0xFF#8, .nop].filterMap ckupdByte = [0xFF#8] ∧
    (∀ i ∈ [Instr.strd, .ckupd 0xFF#8, .nop], setsBaud i = false) ∧
    Instr.errclr ∉ [Instr.strd, .ckupd 0xFF#8, .nop] ∧
    (∀ i ∈ [Instr.setbaud 0#32, .errclr], inspects i = true ∨ setsBaud i = true ∨ ∃ x, i = .ckupd x) := by
  refine ⟨rfl, rfl, ?_, by decide, by decide, by decide, ?_⟩ <;> simp [inspects, setsBaud]

/-- PairIsTheChecksumOfTheBytesFed: after reset no byte has been fed; after one CKUPD of 0xFF, that byte. -/
theorem witness_PairIsTheChecksumOfTheBytesFed :
    (State.reset.ckA, State.reset.ckB) = fletcher8 [] ∧ (0xFF#8, 0xFF#8) = fletcher8 [0xFF#8] ∧
    (∃ t, exec (.ckupd 0xFF#8) State.reset = .next t) ∧ (∃ t, exec .ckrd State.reset = .next t) ∧
    (∃ t, step (facing idle .reset) = .next t) :=
  ⟨by decide, by decide, ⟨_, rfl⟩, ⟨_, rfl⟩, ⟨_, rfl⟩⟩

/-- EncodeLaysOutThePacket: payloads of 0, 65535 and 65536 bytes, and an offset into a payload. -/
theorem witness_EncodeLaysOutThePacket :
    (1#32 : Word) ≠ 0#32 ∧ ([] : List Byte).length ≤ 65535 ∧
    (List.replicate 65535 0#8).length ≤ 65535 ∧ 65535 < (List.replicate 65536 0#8).length ∧
    0 < [0x41#8].length := by
  simp only [List.length_replicate]
  decide

/-- FramingTheorem: the empty payload with SETBAUD in front, and one byte without it, with every kind of
command the rule allows in between. -/
theorem witness_FramingTheorem :
    (State.reset.rem = 0#16 ∧ (∃ d, encodePacket [] (some 1#32) = .ok d) ∧ ClosedRun (lastSegment State.reset.out)) ∧
    (idle.rem = 0#16 ∧ (∃ d, encodePacket [0x41#8] (some 9600#32) = .ok d) ∧
      idle.baud = 9600#32 ∧ idle.baudKnown = true ∧
      (∀ i ∈ [Instr.nop, .ckrd, .strd], inspects i = true) ∧
      (∀ i ∈ [Instr.clrbaud, .strd, .push 0x41#8, .setbaud 0#32],
        inspects i = true ∨ setsBaud i = true ∨ ∃ x, i = .push x) ∧
      [Instr.clrbaud, .strd, .push 0x41#8, .setbaud 0#32].filterMap pushByte = [0x41#8] ∧
      Instr.errclr ∉ [Instr.nop, .ckrd, .strd] ++ [Instr.clrbaud, .strd, .push 0x41#8, .setbaud 0#32]) := by
  refine ⟨⟨rfl, ⟨_, rfl⟩, .inl rfl⟩, rfl, ⟨_, rfl⟩, rfl, rfl, by decide, ?_, by decide, by decide⟩
  simp [inspects, setsBaud]

/-- BaudChangesDoNotTouchThePacket: a run with a PUSH that finishes a packet amid changes of the rate. -/
theorem witness_BaudChangesDoNotTouchThePacket :
    (∀ i ∈ [Instr.clrbaud, .push 0x41#8], ∀ n, i ≠ .start n) ∧
    (∃ t, execAll [.clrbaud, .push 0x41#8] (busyWith 1#16) = .next t) ∧
    (∃ u, execAll ([Instr.clrbaud, .push 0x41#8].filter fun i => !setsBaud i) (busyWith 1#16) = .next u) :=
  ⟨by simp, ⟨_, rfl⟩, ⟨_, rfl⟩⟩

theorem witness_PairIsKeptAfterThePacket :
    ((∃ x, Instr.push 0x41#8 = .push x) ∧ (busyWith 1#16).rem = 1#16) ∧
    (idle.rem = 0#16 ∧ idle.baudKnown = true ∧ idle.baud ≠ 0#32) ∧
    (∀ i ∈ [Instr.push 0#8, .clrbaud, .strd], i ≠ .ckclr ∧ (∀ x, i ≠ .ckupd x) ∧ ∀ n, i ≠ .start n) := by
  refine ⟨⟨⟨_, rfl⟩, rfl⟩, by decide, ?_⟩
  simp

/-- EncodeIsIdempotent: the longest payload of a legal packet, and the first too long. -/
theorem witness_EncodeIsIdempotent :
    (List.replicate 65535 0#8).length < 2 ^ 32 ∧ (List.replicate 65536 0#8).length < 2 ^ 32 ∧
      idle.rem = 0#16 := by
  simp only [List.length_replicate]
  decide

/-- LastFlagMarksCompletion: a last PUSH, a START 0, and a PUSH that is not the last. -/
theorem witness_LastFlagMarksCompletion :
    (∃ t, step (facingWord (busyWith 1#16) 0x700000041#36) = .next t ∧
      t.out = [] ++ [.beat ⟨0x41#8, false⟩, .beat ⟨0xE8#8, false⟩, .beat ⟨0x63#8, true⟩]) ∧
    (∃ t, step (facingWord idle 0x600000000#36) = .next t ∧ t.out =
      [] ++ (plain (header9600 0x00#8 0x00#8 ++ [0xA5#8]) ++ [.beat ⟨0x6F#8, true⟩])) ∧
    (∃ t, step (facingWord (busyWith 2#16) 0x700000041#36) = .next t ∧
      t.out = [] ++ [.beat ⟨0x41#8, false⟩]) :=
  ⟨⟨_, rfl, by decide⟩, ⟨_, rfl, by decide⟩, ⟨_, rfl, by decide⟩⟩

/-- NoPacketBeforeABaudRateIsSet: an unresolved rate, and the rate 0. -/
theorem witness_NoPacketBeforeABaudRateIsSet :
    (State.reset.rem = 0#16 ∧ State.reset.baudKnown = false) ∧
    (State.rem { idle with baud := 0#32 } = 0#16 ∧ State.baud { idle with baud := 0#32 } = 0#32) ∧
    (∀ v, Instr.setbaud v ∈ [Instr.setbaud 0#32, .start 0#32] → v = 0#32) ∧
    (∃ t, execAll [.setbaud 0#32, .start 0#32] State.reset = .next t) :=
  ⟨by decide, by decide, by simp, ⟨_, rfl⟩⟩

/-- EncodeWhileBusyFeedsTheOtherPacket, and TooFewBytesLeaveTheBlockBusy and LengthFieldEqualsPayloadLength
with a run of commands: no byte of one awaited, and one of two. -/
theorem witness_fewer_bytes_than_awaited :
    ([] : List Byte).length < (busyWith 1#16).rem.toNat ∧ [0x42#8].length < (busyWith 2#16).rem.toNat ∧
    ([Instr.start 1#32, .push 0x42#8].filterMap pushByte).length < (busyWith 2#16).rem.toNat ∧
    (∃ t, execAll [.start 1#32, .push 0x42#8] (busyWith 2#16) = .next t) :=
  ⟨by decide, by decide, by decide, ⟨_, rfl⟩⟩

/-- TooManyBytesAreNotSent, with its two outcomes: no byte, one byte. -/
theorem witness_TooManyBytesAreNotSent :
    idle.rem = 0#16 ∧ ([] : List Byte) = [] ∧ [0x41#8] ≠ [] := by decide

/-- OutputOnlyGrows: a step that emits, and one that appends the marker. -/
theorem witness_OutputOnlyGrows :
    (∃ t, step (facingWord (busyWith 2#16) 0x700000041#36) = .next t ∧ t.out ≠ []) ∧
    (∃ t, step (facing idle .reset) = .next t ∧ t.out = [.rst]) :=
  ⟨⟨_, rfl, by decide⟩, ⟨_, rfl, by decide⟩⟩

/-- StepKeepsOutShape and StepKeepsStreamInv: power-on meets both invariants, and a step leaves it. -/
theorem witness_invariants :
    State.OutShape (facing State.reset (.command 0x400000001#36)) ∧
    State.StreamInv (facing State.reset (.command 0x400000001#36)) ∧
    ∃ t, step (facing State.reset (.command 0x400000001#36)) = .next t ∧ t.baud = 1#32 := by
  have hb : ¬ State.busy (facing State.reset (.command 0x400000001#36)) = true := by decide
  exact ⟨⟨fun h => absurd h hb, fun _ => .inl rfl⟩,
    ⟨fun d hd => absurd hd List.not_mem_nil, fun _ => rfl, fun h => absurd h hb⟩, _, rfl, rfl⟩

/-- The busy side of both invariants: a packet with its header sent and one byte to come. -/
theorem witness_invariants_busy :
    let s : State := { idle with rem := 1#16, ckA := 0xA6#8, ckB := 0x75#8, out := plain (header9600 1#8 0#8) }
    s.busy = true ∧ s.OutShape ∧ s.StreamInv := by
  refine ⟨by decide, ⟨fun _ => ⟨[], _, rfl, by decide, by decide, .inl rfl⟩, fun h => ?_⟩,
    fun d hd => ?_, fun h => ?_, fun _ => ⟨1#16, 9600#32, [], by decide, by decide, by decide, by decide⟩⟩
  · exact absurd h (by decide)
  · exact absurd hd (by decide +revert)
  · exact absurd h (by decide)

/-- ReachableStatesMeetR31, OnlyWholePacketsAreEverSent, LengthFieldEqualsPayloadLength and the idle clause of
RunsEndWellExactlyWhenIdle: a reachable state with a datagram. -/
theorem witness_Reachable :
    ∃ s, Reachable s ∧ header9600 0x00#8 0x00#8 ++ [0xA5#8, 0x6F#8] ∈ datagrams s.out := by
  refine ⟨_, ((Reachable.reset.present (.command 0x400002580#36)).present
    (.command 0x600000000#36)).step rfl |>.step rfl, ?_⟩
  decide

/-- The busy clauses of CkrdReturnsThePair and RunsEndWellExactlyWhenIdle. -/
theorem witness_Reachable_busy : ∃ s, Reachable s ∧ s.rem = 1#16 ∧ s.endedWell = false := by
  refine ⟨_, ((Reachable.reset.present (.command 0x400002580#36)).present
    (.command 0x600000001#36)).step rfl |>.step rfl, ?_⟩
  decide

end Sys2Proof.Tests
end

section
/-! PROOFS. The effect of a command as a value: which registers it loads, the beats it emits, its response. It is
computed from the registers the command reads, and applied to the state without reading anything more, so two
states that agree on what a command reads take the same effect. -/

namespace Sys2Proof.Proofs

open Sys2Proof.Machine

/-- What a command does to a state: the registers it loads, whether it clears the flags, the beats it appends and
its response. A failure code in the response is the flag it sets (R162). -/
structure Effect where
  pair : Option (Byte × Byte) := none
  rem : Option Half := none
  baud : Option (Word × Bool) := none
  clearsFlags : Bool := false
  beats : List OutElem := []
  response : Response := ⟨.ok, 0#32⟩

/-- The effect of a failed command (R162). -/
def Effect.fail (c : ErrCode) : Effect := { response := ⟨.err c, 0#32⟩ }

/-- `ERR` after an effect: cleared by ERRCLR, one flag set by a failure, kept by the rest (R27). -/
def Effect.flags (E : Effect) (e : BitVec 5) : BitVec 5 :=
  if E.clearsFlags then 0#5
  else match E.response.code with
    | .ok => e
    | .err c => e ||| c.flag

/-- The state after an effect. -/
def Effect.apply (E : Effect) (s : State) : State where
  ckA := (E.pair.map Prod.fst).getD s.ckA
  ckB := (E.pair.map Prod.snd).getD s.ckB
  rem := E.rem.getD s.rem
  baud := (E.baud.map Prod.fst).getD s.baud
  baudKnown := (E.baud.map Prod.snd).getD s.baudKnown
  err := E.flags s.err
  out := s.out ++ E.beats
  input := s.input
  responses := s.responses ++ [E.response]

/-- The checksum beats of R128, when `r` payload bytes are left to come: sent only after the last of them. -/
def closingBeats (p : Byte × Byte) (r : Half) : List OutElem :=
  if r = 0#16 then [.beat ⟨p.1, false⟩, .beat ⟨p.2, true⟩] else []

/-- A START that passes its tests (R123, R129). -/
def startEffect (n : Half) (b : Word) : Effect where
  pair := some (fletcher8 (headerFields n b))
  rem := some n
  beats := (signature ++ headerFields n b).map (fun x => .beat ⟨x, false⟩) ++
    closingBeats (fletcher8 (headerFields n b)) n

/-- A PUSH while a packet is in progress (R127). -/
def pushEffect (x : Byte) (p : Byte × Byte) (r : Half) : Effect where
  pair := some (ckStep p x)
  rem := some (r - 1#16)
  beats := .beat ⟨x, false⟩ :: closingBeats (ckStep p x) (r - 1#16)

/-- The effect of each command, from the registers it reads. -/
def effect (s : State) : Instr → Effect
  | .nop => {}
  | .ckclr => if s.busy then .fail .busy else { pair := some (0#8, 0#8) }
  | .ckupd x => if s.busy then .fail .busy else { pair := some (ckStep (s.ckA, s.ckB) x) }
  | .ckrd => { response := ⟨.ok, pairData s.ckA s.ckB⟩ }
  | .setbaud v => { baud := some (v, true) }
  | .clrbaud => { baud := some (0#32, false) }
  | .start n =>
    if s.busy then .fail .busy
    else if !s.baudValid then .fail .invalidConfiguration
    else if lengthTooLarge n then .fail .payloadTooLarge
    else startEffect (lengthField n) s.baud
  | .push x => if s.busy then pushEffect x (s.ckA, s.ckB) s.rem else .fail .sequence
  | .strd => { response := ⟨.ok, s.status⟩ }
  | .errclr => { clearsFlags := true }
  | .reservedA _ | .reservedB _ | .reservedC _ | .reservedD _ | .reservedE _ | .reservedF _ =>
    .fail .illegalCommand

theorem finishIfDone_eq (s : State) :
    s.finishIfDone = { s with out := s.out ++ closingBeats (s.ckA, s.ckB) s.rem } := by
  obtain ⟨hr, h⟩ | ⟨hr, h⟩ := finishIfDone_cases s
  · simp [h, hr, closingBeats, State.finish, State.emit]
  · simp [h, hr, closingBeats]

theorem fail_apply (c : ErrCode) (s : State) : (Effect.fail c).apply s = s.raise c := by
  simp [Effect.apply, Effect.fail, Effect.flags, State.raise, State.setFlag, State.respond]

theorem startEffect_apply (n : Half) (s : State) :
    (startEffect n s.baud).apply s = ((s.emitHeader n).setRem n).finishIfDone.ok := by
  simp [finishIfDone_eq, emitHeader_eq, Effect.apply, Effect.flags, startEffect, State.setRem, State.ok,
    State.respond]

theorem pushEffect_apply (x : Byte) (s : State) :
    (pushEffect x (s.ckA, s.ckB) s.rem).apply s =
      ((s.emitFeed x).setRem (s.rem - 1#16)).finishIfDone.ok := by
  simp [finishIfDone_eq, Effect.apply, Effect.flags, pushEffect, State.emitFeed, State.emit, State.feed,
    State.setPair, State.setRem, State.ok, State.respond]

/-- A command does to the state what its effect says, and nothing else. -/
theorem after_eq_apply (s : State) (i : Instr) : after s i = (effect s i).apply s := by
  cases i with
  | ckclr =>
    cases h : s.busy with
    | true => simp [effect, h, after_ckclr_busy, fail_apply]
    | false =>
      simp [effect, h, after_ckclr_idle, Effect.apply, Effect.flags, State.setPair, State.ok, State.respond]
  | ckupd x =>
    cases h : s.busy with
    | true => simp [effect, h, after_ckupd_busy, fail_apply]
    | false =>
      simp [effect, h, after_ckupd_idle, Effect.apply, Effect.flags, State.feed, State.setPair, State.ok,
        State.respond]
  | start n =>
    cases h : s.busy with
    | true => simp [effect, h, after_start_busy, fail_apply]
    | false =>
      cases hb : s.baudValid with
      | false => simp [effect, h, hb, after_start_invalidConfiguration, fail_apply]
      | true =>
        cases hn : lengthTooLarge n with
        | true => simp [effect, h, hb, hn, after_start_payloadTooLarge, fail_apply]
        | false => simp [effect, h, hb, hn, after_start_ok, startEffect_apply]
  | push x =>
    cases h : s.busy with
    | true => simp [effect, h, after_push_busy, pushEffect_apply]
    | false => simp [effect, h, after_push_idle, fail_apply]
  | reservedA | reservedB | reservedC | reservedD | reservedE | reservedF => exact (fail_apply _ s).symm
  | nop | ckrd | setbaud | clrbaud | strd | errclr =>
    simp [after, exec, execNop, execCkrd, execSetbaud, execClrbaud, execStrd, execErrclr, effect, Effect.apply,
      Effect.flags, State.ok, State.respond, State.setBaud, State.clearFlags]

theorem exec_eq_apply (i : Instr) (s : State) : exec i s = .next ((effect s i).apply s) := by
  rw [exec_eq_after, after_eq_apply]

/-! Which registers the effect of a command does not depend on (R32, the readers). -/

theorem effect_with_pair (s : State) (a b : Byte) {i : Instr} (hu : ∀ x, i ≠ .ckupd x) (hr : i ≠ .ckrd)
    (hp : ∀ x, i ≠ .push x) : effect { s with ckA := a, ckB := b } i = effect s i := by
  cases i with
  | ckupd x => exact absurd rfl (hu x)
  | ckrd => exact absurd rfl hr
  | push x => exact absurd rfl (hp x)
  | _ => rfl

theorem effect_with_rem (s : State) (r : Half) {i : Instr} (hc : i ≠ .ckclr) (hu : ∀ x, i ≠ .ckupd x)
    (hs : ∀ n, i ≠ .start n) (hp : ∀ x, i ≠ .push x) (hd : i ≠ .strd) :
    effect { s with rem := r } i = effect s i := by
  cases i with
  | ckclr => exact absurd rfl hc
  | ckupd x => exact absurd rfl (hu x)
  | start n => exact absurd rfl (hs n)
  | push x => exact absurd rfl (hp x)
  | strd => exact absurd rfl hd
  | _ => rfl

theorem effect_with_baud (s : State) (v : Word) {i : Instr} (hs : ∀ n, i ≠ .start n) :
    effect { s with baud := v } i = effect s i := by
  cases i with
  | start n => exact absurd rfl (hs n)
  | _ => rfl

theorem effect_with_baudKnown (s : State) (k : Bool) {i : Instr} (hs : ∀ n, i ≠ .start n) (hd : i ≠ .strd) :
    effect { s with baudKnown := k } i = effect s i := by
  cases i with
  | start n => exact absurd rfl (hs n)
  | strd => exact absurd rfl hd
  | _ => rfl

theorem effect_with_err (s : State) (e : BitVec 5) {i : Instr} (hd : i ≠ .strd) :
    effect { s with err := e } i = effect s i := by
  cases i with
  | strd => exact absurd rfl hd
  | _ => rfl

/-- No command reads `OUT`. -/
theorem effect_with_out (s : State) (o : List OutElem) (i : Instr) :
    effect { s with out := o } i = effect s i := by
  cases i <;> rfl

/-- No command reads the responses given before it. -/
theorem effect_with_responses (s : State) (rs : List Response) (i : Instr) :
    effect { s with responses := rs } i = effect s i := by
  cases i <;> rfl

end Sys2Proof.Proofs
end

section
/-! PROOFS. The state's own facts: the values of reset (R34), the status word (R28), the flags (R27), the access
matrix (R32). -/

namespace Sys2Proof.Proofs

open Sys2Proof.Machine

/-! ### Reset and the status word -/

/-- Settles O1: the values stand in `State.reset` and in `State.takeReset`, and the pair of 0 reads as 0. -/
theorem resetLeavesTheStatedValues : Obligations.ResetLeavesTheStatedValues := by
  refine ⟨⟨rfl, rfl, rfl, rfl, rfl, rfl, rfl⟩, fun s rest h => ?_, _, rfl, rfl⟩
  exact ⟨_, step_reset h, rfl, rfl, rfl, rfl, rfl, rfl, rfl⟩

/-- A field of the status word is read off its number. -/
theorem status_field_eq (s : State) (lo n : Nat) (v : BitVec n)
    (h : s.status.toNat / 2 ^ lo % 2 ^ n = v.toNat) : s.status.extractLsb' lo n = v := by
  apply BitVec.eq_of_toNat_eq
  rw [BitVec.extractLsb'_toNat, Nat.shiftRight_eq_div_pow, h]

/-- A flag of the status word is read off its number. -/
theorem status_flag_eq (s : State) (k : Nat) (f : Bool) (h : s.status.toNat / 2 ^ k % 2 = f.toNat) :
    s.status.getLsbD k = f := by
  rw [BitVec.getLsbD, Nat.testBit_eq_decide_div_mod_eq, h]
  cases f <;> rfl

/-- Settles O15: the fields are those of the word's number `toNat_status`. -/
theorem statusWordFields : Obligations.StatusWordFields := by
  intro s
  have hr := s.rem.isLt
  have hb := s.busy.toNat_le
  have hk := s.baudKnown.toNat_le
  have he := s.err.isLt
  have hs := toNat_status s
  have hbusy : s.status.getLsbD 16 = s.busy := status_flag_eq s 16 _ (by omega)
  exact ⟨status_field_eq s 0 16 _ (by omega), by rw [hbusy, busy_eq_true_iff],
    status_flag_eq s 17 _ (by omega), status_field_eq s 18 6 _ (show _ = 0 by omega),
    status_field_eq s 24 5 _ (by omega), status_field_eq s 29 3 _ (show _ = 0 by omega)⟩

/-! ### The flags -/

/-- The flag of a failure is bit `c - 1` for code `c`. -/
theorem flag_getLsbD (c : ErrCode) {k : Nat} (hk : k < 5) :
    c.flag.getLsbD k = true ↔ k + 1 = (RspCode.err c).number.toNat := by
  cases c <;> decide +revert

/-- A command fails, or it answers `OK` and keeps the flags unless it is ERRCLR. -/
theorem after_fails_or_keeps_flags (s : State) (i : Instr) :
    (∃ c, after s i = s.raise c) ∨
    ∃ d, (after s i).responses = s.responses ++ [⟨.ok, d⟩] ∧ (i ≠ .errclr → (after s i).err = s.err) := by
  obtain ⟨c, h⟩ | ⟨-, d, h⟩ | ⟨hi, h⟩ | ⟨-, v, k, h⟩ | ⟨-, -, p, h⟩ | ⟨n, -, -, -, -, h⟩ | ⟨x, -, -, h⟩ :=
    exec_cases i s
  · exact .inl ⟨c, h⟩
  · exact .inr ⟨d, by simp [h], fun _ => by simp [h]⟩
  · exact .inr ⟨0#32, by simp [h], fun hn => absurd hi hn⟩
  all_goals exact .inr ⟨0#32, by simp [h, emitHeader_eq], fun _ => by simp [h, emitHeader_eq]⟩

/-- The flags and the data of the responses are all in which two states differ. -/
def SameButFlags (s u : State) : Prop :=
  ∃ (e : BitVec 5) (rs : List Response), u = { s with err := e, responses := rs } ∧
    rs.map Response.code = s.responses.map Response.code

/-- `ERR` gates nothing (R27): the flags reach only the data STRD answers. -/
theorem after_sameButFlags {s u : State} (h : SameButFlags s u) (i : Instr) :
    SameButFlags (after s i) (after u i) := by
  obtain ⟨e, rs, rfl, hrs⟩ := h
  rw [after_eq_apply, after_eq_apply]
  by_cases hi : i = .strd
  · subst hi
    exact ⟨_, _, rfl, by simp [Effect.apply, effect, hrs]⟩
  · have hE : effect { s with err := e, responses := rs } i = effect s i :=
      (effect_with_responses { s with err := e } rs i).trans (effect_with_err s e hi)
    rw [hE]
    exact ⟨_, _, rfl, by simp [Effect.apply, hrs]⟩

theorem foldl_after_sameButFlags (is : List Instr) {s u : State} (h : SameButFlags s u) :
    SameButFlags (is.foldl after s) (is.foldl after u) := by
  induction is generalizing s u with
  | nil => exact h
  | cons i is ih => exact ih (after_sameButFlags h i)

/-- Settles O22: a failure is `State.raise`, a success keeps the flags, and along a run two states that
differ in the flags stay `SameButFlags`. -/
theorem flagsAreStickyAndGateNothing : Obligations.FlagsAreStickyAndGateNothing := by
  refine ⟨fun i s t r h hr => ?_, fun is s t e h => ?_⟩
  · obtain rfl := after_eq h
    obtain ⟨c, ht⟩ | ⟨d, ht, hkeep⟩ := after_fails_or_keeps_flags s i
    · obtain rfl : (⟨.err c, 0#32⟩ : Response) = r := by simpa [ht] using hr
      refine ⟨by simp, fun c' _ k hk => ?_⟩
      rw [ht, State.raise_err, BitVec.getLsbD_or, Bool.or_eq_true, flag_getLsbD c hk]
    · obtain rfl : (⟨.ok, d⟩ : Response) = r := by simpa [ht] using hr
      exact ⟨fun _ hi => hkeep hi, by simp⟩
  · rw [execAll_eq_foldl] at h
    obtain rfl : is.foldl after s = t := by simpa using h
    obtain ⟨e', rs, hu, hrs⟩ :=
      foldl_after_sameButFlags is (s := s) (u := { s with err := e }) ⟨e, s.responses, rfl, rfl⟩
    exact ⟨_, execAll_eq_foldl is _, by simp [hu, hrs]⟩

/-! ### The access matrix: the writers -/

theorem after_input (s : State) (i : Instr) : (after s i).input = s.input := by
  rw [after_eq_apply]; rfl

theorem after_pair_writers (s : State) (i : Instr)
    (h : ((after s i).ckA, (after s i).ckB) ≠ (s.ckA, s.ckB)) :
    i = .ckclr ∨ (∃ x, i = .ckupd x) ∨ (∃ n, i = .start n) ∨ ∃ x, i = .push x := by
  obtain ⟨c, ht⟩ | ⟨-, d, ht⟩ | ⟨-, ht⟩ | ⟨-, v, k, ht⟩ | ⟨-, hi | hi, -⟩ | ⟨n, hi, -⟩ | ⟨x, hi, -⟩ :=
    exec_cases i s
  iterate 4 exact absurd (by simp [ht]) h
  · exact .inl hi
  · exact .inr (.inl hi)
  · exact .inr (.inr (.inl ⟨n, hi⟩))
  · exact .inr (.inr (.inr ⟨x, hi⟩))

/-- `REM` and `OUT` are written by START and PUSH alone. -/
theorem after_framer_writers (s : State) (i : Instr)
    (h : (after s i).rem ≠ s.rem ∨ (after s i).out ≠ s.out) :
    (∃ n, i = .start n) ∨ ∃ x, i = .push x := by
  obtain ⟨c, ht⟩ | ⟨-, d, ht⟩ | ⟨-, ht⟩ | ⟨-, v, k, ht⟩ | ⟨-, -, p, ht⟩ | ⟨n, hi, -⟩ | ⟨x, hi, -⟩ :=
    exec_cases i s
  iterate 5 exact absurd h (by simp [ht])
  · exact .inl ⟨n, hi⟩
  · exact .inr ⟨x, hi⟩

theorem after_baud_writers (s : State) (i : Instr)
    (h : ((after s i).baud, (after s i).baudKnown) ≠ (s.baud, s.baudKnown)) :
    (∃ v, i = .setbaud v) ∨ i = .clrbaud := by
  obtain ⟨c, ht⟩ | ⟨-, d, ht⟩ | ⟨-, ht⟩ | ⟨hi, -⟩ | ⟨-, -, p, ht⟩ | ⟨n, -, -, -, -, ht⟩ | ⟨x, -, -, ht⟩ :=
    exec_cases i s
  case inr.inr.inr.inl => exact hi.symm
  all_goals exact absurd (by simp [ht, emitHeader_eq]) h

theorem after_err_writers (s : State) (i : Instr) (h : (after s i).err ≠ s.err) :
    i = .errclr ∨ ∃ c, (after s i).responses = s.responses ++ [⟨.err c, 0#32⟩] := by
  obtain ⟨c, ht⟩ | ⟨d, -, hkeep⟩ := after_fails_or_keeps_flags s i
  · exact .inr ⟨c, by simp [ht]⟩
  · exact .inl (by_contra fun hi => h (hkeep hi))

/-- A command whose effect is the same from two states answers, from the second, the effect of the first. -/
theorem exec_of_same_effect {i : Instr} {s u : State} (h : effect u i = effect s i) :
    exec i u = .next ((effect s i).apply u) := by
  rw [exec_eq_apply, h]

/-- Settles O26: the writers case by case; and what a command does not read leaves its effect the same. -/
theorem commandsKeepToTheAccessMatrix : Obligations.CommandsKeepToTheAccessMatrix := by
  intro i s
  refine ⟨after s i, exec_eq_after i s, after_input s i, after_pair_writers s i,
    fun h => after_framer_writers s i (.inl h), after_baud_writers s i, after_err_writers s i,
    fun h => after_framer_writers s i (.inr h), ?_⟩
  rw [after_eq_apply]
  exact ⟨fun hu hr hp a b => ⟨_, _, exec_of_same_effect (effect_with_pair s a b hu hr hp)⟩,
    fun hc hu hs hp hd r => ⟨_, exec_of_same_effect (effect_with_rem s r hc hu hs hp hd)⟩,
    fun hs v => ⟨_, exec_of_same_effect (effect_with_baud s v hs)⟩,
    fun hs hd k => ⟨_, exec_of_same_effect (effect_with_baudKnown s k hs hd)⟩,
    fun hd e => ⟨_, exec_of_same_effect (effect_with_err s e hd)⟩,
    fun o => ⟨_, exec_of_same_effect (effect_with_out s o i)⟩⟩

end Sys2Proof.Proofs
end

section
/-! PROOFS. R31: the shape of the last segment of the history, kept by every step and so true of every reachable
state. -/

namespace Sys2Proof.Proofs

open Sys2Proof.Machine

/-- Eight or more beats without a last flag, after whole runs, are an open run. -/
theorem openRun_of_closedRun {l run : List Beat} (h : ClosedRun l) (hlen : 8 ≤ run.length)
    (hrun : ∀ b ∈ run, b.last = false) : OpenRun (l ++ run) :=
  ⟨l, run, rfl, hlen, hrun, h⟩

theorem openRun_append {l : List Beat} (h : OpenRun l) {b : Beat} (hb : b.last = false) :
    OpenRun (l ++ [b]) := by
  obtain ⟨pre, run, rfl, hlen, hrun, hpre⟩ := h
  refine ⟨pre, run ++ [b], by simp, by simp; omega, fun c hc => ?_, hpre⟩
  obtain hc | rfl : c ∈ run ∨ c = b := by simpa using hc
  · exact hrun c hc
  · exact hb

theorem closedRun_append (l : List Beat) {b : Beat} (hb : b.last = true) : ClosedRun (l ++ [b]) :=
  .inr (by simp [hb])

theorem outShape_of_idle {s : State} (h : s.rem = 0#16) (hc : ClosedRun (lastSegment s.out)) : s.OutShape :=
  ⟨fun hb => absurd h ((busy_eq_true_iff s).1 hb), fun _ => hc⟩

theorem outShape_of_busy {s : State} (h : s.rem ≠ 0#16) (ho : OpenRun (lastSegment s.out)) : s.OutShape :=
  ⟨fun _ => ho, fun hb => absurd ((busy_eq_false_iff s).1 hb) h⟩

/-- R31 (b) and (c) speak of `REM` and `OUT` alone. -/
theorem outShape_of_same {s t : State} (hs : s.OutShape) (hr : t.rem = s.rem) (ho : t.out = s.out) :
    t.OutShape := by
  simpa only [State.OutShape, State.busy, hr, ho] using hs

/-- The end of START and PUSH: the open run is closed when no payload byte is left to come. -/
theorem finishIfDone_outShape {s : State} (h : OpenRun (lastSegment s.out)) : s.finishIfDone.OutShape := by
  obtain ⟨hr, hf⟩ | ⟨hr, hf⟩ := finishIfDone_cases s <;> rw [hf]
  · refine outShape_of_idle hr ?_
    rw [State.finish, State.emit_out, lastSegment_append_beat]
    exact closedRun_append _ rfl
  · exact outShape_of_busy hr h

theorem emitHeader_openRun {s : State} (n : Half) (h : ClosedRun (lastSegment s.out)) :
    OpenRun (lastSegment (s.emitHeader n).out) := by
  rw [emitHeader_eq, lastSegment_append_beats]
  exact openRun_of_closedRun h (by simp [signature, headerFields, le16, le32]) fun b hb => by
    obtain ⟨d, -, rfl⟩ := List.mem_map.1 hb; rfl

/-- Every command keeps R31 (b) and (c): START opens a run after whole ones, PUSH extends the open one, and
each closes it when nothing is left to come. -/
theorem after_outShape {s : State} (hs : s.OutShape) (i : Instr) : (after s i).OutShape := by
  obtain ⟨c, ht⟩ | ⟨-, d, ht⟩ | ⟨-, ht⟩ | ⟨-, v, k, ht⟩ | ⟨-, -, p, ht⟩ | ⟨n, -, hb, -, -, ht⟩ |
    ⟨x, -, hb, ht⟩ := exec_cases i s <;> rw [ht]
  iterate 5 exact outShape_of_same hs rfl rfl
  · have ho : OpenRun (lastSegment ((s.emitHeader (lengthField n)).setRem (lengthField n)).out) := by
      rw [State.setRem_out]; exact emitHeader_openRun _ (hs.2 hb)
    exact outShape_of_same (finishIfDone_outShape ho) (State.ok_rem _) (State.ok_out _)
  · have ho : OpenRun (lastSegment ((s.emitFeed x).setRem (s.rem - 1#16)).out) := by
      rw [State.setRem_out, State.emitFeed_out, lastSegment_append_beat]
      exact openRun_append (hs.1 hb) rfl
    exact outShape_of_same (finishIfDone_outShape ho) (State.ok_rem _) (State.ok_out _)

/-- Every step keeps R31 (b) and (c); a reset leaves the last segment empty. -/
theorem step_outShape {s t : State} (hs : s.OutShape) (h : step s = .next t) : t.OutShape := by
  obtain ⟨-, hst⟩ | ⟨rest, -, hst⟩ | ⟨w, rest, i, -, -, hst⟩ | ⟨w, rest, why, -, -, hst⟩ := step_cases s <;>
    obtain rfl := Host.Outcome.next.inj (hst.symm.trans h)
  · exact hs
  · exact outShape_of_idle rfl (.inl (lastSegment_append_rst _))
  · exact after_outShape (s := { s with input := rest }) hs i
  · exact outShape_of_same hs rfl rfl

theorem reachable_outShape {s : State} (h : Reachable s) : s.OutShape := by
  induction h with
  | reset => exact outShape_of_idle rfl (.inl rfl)
  | present e _ ih => exact ih
  | step _ hst ih => exact step_outShape ih hst

/-- Settles O55: (b) and (c) by induction along the run, (a) and (d) in every state. -/
theorem reachableStatesMeetR31 : Obligations.ReachableStatesMeetR31 := by
  intro s h
  obtain ⟨-, -, -, hlow, -, hhigh⟩ := statusWordFields s
  exact ⟨Nat.le_of_lt_succ s.rem.isLt, reachable_outShape h, hlow, hhigh⟩

end Sys2Proof.Proofs
end

section
/-! PROOFS. Byte order (R51, R52): the fields of a word as quotients of its number, and the two fields of a
packet they make. -/

namespace Sys2Proof.Proofs

open Sys2Proof.Machine

/-- A field of a word is the number shifted down to it, cut to the field's width. -/
theorem extractLsb'_eq_ofNat_div {w : Nat} (v : BitVec w) (lo n : Nat) :
    v.extractLsb' lo n = BitVec.ofNat n (v.toNat / 2 ^ lo) := by
  rw [BitVec.extractLsb', Nat.shiftRight_eq_div_pow]

theorem le16_eq (v : Half) : le16 v = [BitVec.ofNat 8 v.toNat, BitVec.ofNat 8 (v.toNat / 2 ^ 8)] := by
  simp only [le16, extractLsb'_eq_ofNat_div, Nat.pow_zero, Nat.div_one]

theorem le32_eq (v : Word) :
    le32 v = [BitVec.ofNat 8 v.toNat, BitVec.ofNat 8 (v.toNat / 2 ^ 8), BitVec.ofNat 8 (v.toNat / 2 ^ 16),
      BitVec.ofNat 8 (v.toNat / 2 ^ 24)] := by
  simp only [le32, extractLsb'_eq_ofNat_div, Nat.pow_zero, Nat.div_one]

/-- `encode` of R120 succeeds on a legal rate and payload, and on no others, with the packet of R70. -/
theorem encodePacket_eq_ok_iff (p : List Byte) (b : Word) (d : List Byte) :
    encodePacket p (some b) = .ok d ↔ b ≠ 0#32 ∧ p.length ≤ 65535 ∧ d = packet p b := by
  by_cases hb : b = 0#32
  · simp [encodePacket, hb]
  · by_cases hp : 65535 < p.length
    · simp [encodePacket, hb, hp, Nat.not_le.2 hp]
    · simp [encodePacket, hb, hp, Nat.not_lt.1 hp, eq_comm]

/-- Offsets 2 and 3 of a packet (R70). -/
theorem packet_length_field (p : List Byte) (b : Word) :
    ((packet p b).drop 2).take 2 = le16 (BitVec.ofNat 16 p.length) := rfl

/-- Offsets 4 to 7 of a packet (R70). -/
theorem packet_baud_field (p : List Byte) (b : Word) : ((packet p b).drop 4).take 4 = le32 b := rfl

/-- Settles O28: each byte is a field of the word, and a packet that `encode` gives is `packet`. -/
theorem littleEndianFields : Obligations.LittleEndianFields := by
  refine ⟨le16_eq, le32_eq, by decide, by decide, by decide, by decide, fun p d b h => ?_⟩
  obtain ⟨-, -, rfl⟩ := (encodePacket_eq_ok_iff p b d).1 h
  exact ⟨packet_length_field p b, packet_baud_field p b⟩

end Sys2Proof.Proofs
end

section
/-! PROOFS. Sequences of commands (R57): a step that takes the encoding of an instruction runs that instruction,
so as many steps as commands presented are the fold of `exec` over them. -/

namespace Sys2Proof.Proofs

open Sys2Proof.Machine

/-- A byte operand, widened to the operand's 32 bits, passes format B's test and is read back. -/
theorem decodeB_setWidth (k : BitVec 4) (x : Byte) (f : Byte → Instr) :
    decodeB k (x.setWidth 32) f = .instr (f x) := by
  have hx : (x.setWidth 32 : Word).toNat = x.toNat := BitVec.toNat_setWidth_of_le (by decide)
  rw [decodeB_of_lt _ _ _ (hx ▸ x.isLt), hx, BitVec.ofNat_toNat, BitVec.setWidth_eq]

/-- An instruction's encoding decodes to it: the operands of format B are read back from the low byte, the
other formats' as they are. -/
theorem decode_encode (i : Instr) : decode (encode i) = .instr i := by
  rw [decode_encode_fields]
  cases i with
  | ckupd x => exact decodeB_setWidth 0x2#4 x .ckupd
  | push x => exact decodeB_setWidth 0x7#4 x .push
  | _ => rfl

theorem step_encode {s : State} {i : Instr} {rest : List HostEvent}
    (h : s.input = .command (encode i) :: rest) : step s = .next (after { s with input := rest } i) := by
  rw [step_command h, execWord_instr (decode_encode i), exec_eq_after]

theorem core_run_succ {s t : State} (h : step s = .next t) (k : Nat) :
    Host.Core.run core (k + 1) s = Host.Core.run core k t := by
  have hc : core.step s = .next t := h
  simp only [Host.Core.run, hc]

theorem execAll_cons (i : Instr) (is : List Instr) (s : State) :
    execAll (i :: is) s = execAll is (after s i) := by
  rw [execAll, exec_eq_after]

/-- What the host has presented may be replaced before a command as well as after it. -/
theorem after_with_input_twice (s : State) (i : Instr) (l k : List HostEvent) :
    { after { s with input := l } i with input := k } = after { s with input := k } i := by
  rw [after_with_input s i l, after_with_input s i k]

/-- Settles O36, by induction on the list of instructions: each step takes the first encoding off the input and
runs its instruction, which neither reads nor writes the encodings still to come. -/
theorem runOfCommandsIsTheFold : Obligations.RunOfCommandsIsTheFold := by
  intro is
  induction is with
  | nil =>
    intro s h
    have hs : s.input = [] := h
    rw [← hs]
    rfl
  | cons i is ih =>
    intro s h
    rw [List.length_cons, core_run_succ (step_encode h), ih _ (after_input _ i), execAll_cons,
      after_with_input_twice]

end Sys2Proof.Proofs
end

section
/-! PROOFS. The cut of a history (R60): its segments joined by `Rst` are the history, and the runs and the tail of
a segment are the segment, cut exactly after its beats with last flag 1. -/

namespace Sys2Proof.Proofs

open Sys2Proof.Machine

/-- The pieces cut from a history that follows the beats `acc`, joined by `Rst`, are those beats and the
history. -/
theorem segmentsFrom_intercalate (acc : List Beat) (o : List OutElem) :
    acc.map OutElem.beat ++ o =
      [OutElem.rst].intercalate ((segmentsFrom acc o).map fun s => s.map OutElem.beat) := by
  induction o generalizing acc with
  | nil => simp [segmentsFrom]
  | cons x o ih =>
    cases x with
    | beat b => simpa [segmentsFrom] using ih (acc ++ [b])
    | rst =>
      have hne : (segmentsFrom [] o).map (fun s => s.map OutElem.beat) ≠ [] := by
        simpa using segmentsFrom_ne_nil [] o
      rw [segmentsFrom, List.map_cons, List.intercalate_cons_of_ne_nil hne, ← ih []]
      simp

theorem segments_getLast? (o : List OutElem) : (segments o).getLast? = some (lastSegment o) := by
  rw [segments_split]
  exact List.getLast?_concat

theorem runs_flatten_append_tail (s : List Beat) : (runs s).1.flatten ++ (runs s).2 = s := by
  induction s using List.reverseRecOn with
  | nil => rfl
  | append_singleton s b ih => cases hb : b.last <;> simp [runs_append, hb, ← List.append_assoc, ih]

/-- The tail has no beat with last flag 1: such a beat ends the run it stands in. -/
theorem runs_tail_last_eq_false (s : List Beat) : ∀ c ∈ (runs s).2, c.last = false := by
  induction s using List.reverseRecOn with
  | nil => simp [runs, runsFrom]
  | append_singleton s b ih =>
    cases hb : b.last with
    | true => simp [runs_append, hb]
    | false => simpa [runs_append, hb, or_imp, forall_and] using ih

/-- Each run ends with its only beat with last flag 1: it is the tail before that beat, and the beat. -/
theorem runs_end_at_only_last (s : List Beat) :
    ∀ r ∈ (runs s).1, ∃ (q : List Beat) (b : Beat), r = q ++ [b] ∧ b.last = true ∧
      ∀ c ∈ q, c.last = false := by
  induction s using List.reverseRecOn with
  | nil => simp [runs, runsFrom]
  | append_singleton s b ih =>
    cases hb : b.last with
    | false => simpa [runs_append, hb] using ih
    | true =>
      rw [runs_append, if_pos hb]
      intro r hr
      obtain hr | hr := List.mem_append.1 hr
      · exact ih r hr
      · exact ⟨_, b, List.mem_singleton.1 hr, hb, runs_tail_last_eq_false s⟩

/-- Settles O50: the segments from their recursion, the runs and the tail by adding one beat at the end, and
the last segment from `segments_split`. -/
theorem historyIsCutIntoDatagrams : Obligations.HistoryIsCutIntoDatagrams :=
  ⟨segmentsFrom_intercalate [],
    fun s => ⟨(runs_flatten_append_tail s).symm, runs_end_at_only_last s, runs_tail_last_eq_false s⟩,
    fun o => ⟨List.flatMap_def, lastSegment o, segments_getLast? o, rfl⟩⟩

end Sys2Proof.Proofs
end

section
/-! PROOFS. The packet of R70 byte by byte: the header, the payload and the checksum of R75, and the beats that
carry it (R82). -/

namespace Sys2Proof.Proofs

open Sys2Proof.Machine

/-! ### The bytes of the packet -/

theorem packetBody_length (p : List Byte) (b : Word) : (packetBody p b).length = 6 + p.length := by
  simp [packetBody, headerFields, le16, le32]
  omega

theorem packet_length (p : List Byte) (b : Word) : (packet p b).length = 10 + p.length := by
  simp [packet, packetBody_length, signature]
  omega

/-- The checksum covers the bytes at offsets 2 to `7 + N` (R75). -/
theorem packet_covered_bytes (p : List Byte) (b : Word) :
    ((packet p b).drop 2).take (6 + p.length) = packetBody p b := by
  rw [← packetBody_length p b]
  exact List.take_left

/-- A length that fits its field is its low byte and its high byte there. -/
theorem le16_ofNat {n : Nat} (h : n ≤ 65535) :
    le16 (BitVec.ofNat 16 n) = [BitVec.ofNat 8 (n % 256), BitVec.ofNat 8 (n / 256)] := by
  have hn : (BitVec.ofNat 16 n).toNat = n := Nat.mod_eq_of_lt (Nat.lt_succ_of_le h)
  have hlow : BitVec.ofNat 8 n = BitVec.ofNat 8 (n % 256) := by
    apply BitVec.eq_of_toNat_eq
    simp
  rw [le16_eq, hn, hlow]
  rfl

theorem packet_length_bytes {p : List Byte} (b : Word) (h : p.length ≤ 65535) :
    (packet p b)[2]? = some (BitVec.ofNat 8 (p.length % 256)) ∧
    (packet p b)[3]? = some (BitVec.ofNat 8 (p.length / 256)) :=
  ⟨congrArg (·[0]?) (le16_ofNat h), congrArg (·[1]?) (le16_ofNat h)⟩

/-- After the 8 bytes of the header come the payload and the two checksum bytes. -/
theorem packet_getElem?_after_header (p : List Byte) (b : Word) (i : Nat) :
    (packet p b)[8 + i]? =
      (p ++ [(fletcher8 (packetBody p b)).1, (fletcher8 (packetBody p b)).2])[i]? :=
  (List.getElem?_drop (xs := packet p b) (i := 8)).symm

theorem packet_payload_bytes {p : List Byte} (b : Word) {i : Nat} (h : i < p.length) :
    (packet p b)[8 + i]? = p[i]? := by
  rw [packet_getElem?_after_header, List.getElem?_append_left h]

theorem packet_checksum_bytes (p : List Byte) (b : Word) :
    (packet p b)[8 + p.length]? = some (fletcher8 (packetBody p b)).1 ∧
    (packet p b)[9 + p.length]? = some (fletcher8 (packetBody p b)).2 := by
  rw [show 9 + p.length = 8 + (p.length + 1) by omega]
  simp [packet_getElem?_after_header]

theorem encodePacket_payloadTooLarge {p : List Byte} {b : Word} (hb : b ≠ 0#32) (hp : 65535 < p.length) :
    encodePacket p (some b) = .error .payloadTooLarge := by
  simp [encodePacket, hb, hp]

/-- Settles O39: where `encode` succeeds it gives `packet`, whose bytes are read field by field. -/
theorem encodeLaysOutThePacket : Obligations.EncodeLaysOutThePacket := by
  intro p b
  refine ⟨rfl, rfl, encodePacket_payloadTooLarge, fun hb hp => ?_⟩
  obtain ⟨hlow, hhigh⟩ := packet_length_bytes b hp
  obtain ⟨hckA, hckB⟩ := packet_checksum_bytes p b
  refine ⟨packet p b, (encodePacket_eq_ok_iff p b _).2 ⟨hb, hp, rfl⟩, packet_length p b, rfl, rfl, hlow, hhigh,
    rfl, rfl, rfl, rfl, fun i => packet_payload_bytes b, ?_⟩
  rw [packet_covered_bytes]
  exact ⟨hckA, hckB⟩

/-! ### The beats of the packet -/

theorem beat_word_data (b : Beat) : b.word.extractLsb' 0 8 = b.data :=
  BitVec.extractLsb'_append_eq_right

theorem beat_word_last (b : Beat) : b.word.getLsbD 8 = b.last :=
  (BitVec.getLsbD_append (i := 8)).trans (by simp)

/-- The bytes of a packet but the final one, which is the second checksum byte. -/
def packetInit (p : List Byte) (b : Word) : List Byte :=
  signature ++ packetBody p b ++ [(fletcher8 (packetBody p b)).1]

theorem packet_eq_packetInit_append (p : List Byte) (b : Word) :
    packet p b = packetInit p b ++ [(fletcher8 (packetBody p b)).2] := by
  simp [packet, packetInit]

theorem packetInit_length (p : List Byte) (b : Word) : (packetInit p b).length = 9 + p.length := by
  have h := packet_length p b
  rw [packet_eq_packetInit_append, List.length_append, List.length_singleton] at h
  omega

/-- Settles O25: `packetBeats` flags the final byte alone, which in a packet is the second checksum byte. -/
theorem beatsCarryTheLastFlag : Obligations.BeatsCarryTheLastFlag := by
  refine ⟨fun b => ⟨beat_word_data b, beat_word_last b⟩, fun p b d h => ?_⟩
  obtain ⟨-, -, rfl⟩ := (encodePacket_eq_ok_iff p b d).1 h
  exact ⟨packetInit p b, (fletcher8 (packetBody p b)).2, packet_eq_packetInit_append p b,
    packetInit_length p b, by rw [packet_eq_packetInit_append, packetBeats_append]⟩

end Sys2Proof.Proofs
end

section
/-! PROOFS. The words of the command and response ports: the legal command words and how many there are (R80),
the response word and its data (R81). -/

namespace Sys2Proof.Proofs

open Sys2Proof.Machine

/-! ### The legal command words -/

/-- How many operands are legal after an opcode (R80): the legal ones are the numbers below it. -/
def legalOperands (k : BitVec 4) : Nat :=
  if k.toNat ∈ [0, 1, 3, 5, 8, 9] then 1
  else if k.toNat ∈ [2, 7] then 256
  else if k.toNat ≤ 9 then 2 ^ 32
  else 0

theorem legalOperands_le (k : BitVec 4) : legalOperands k ≤ 2 ^ 32 := by
  unfold legalOperands
  split_ifs <;> decide

/-- The bound as the tests of R80. -/
theorem lt_legalOperands_iff (k : BitVec 4) (a : Word) :
    a.toNat < legalOperands k ↔
      k.toNat ≤ 9 ∧ (k.toNat ∈ [0, 1, 3, 5, 8, 9] → a.toNat = 0) ∧
        (k.toNat ∈ [2, 7] → a.toNat < 256) := by
  have ha := a.isLt
  simp only [legalOperands, List.mem_cons, List.not_mem_nil, or_false]
  split_ifs <;> omega

theorem decodeZ_legal_iff (k : BitVec 4) (a : Word) {i : Instr} (hi : i.wellFormed = true) :
    (∃ j, decodeZ k a i = .instr j ∧ j.wellFormed = true) ↔ a.toNat < 1 := by
  simp [decodeZ_eq_instr_iff, hi, ← BitVec.toNat_inj]

theorem decodeB_legal_iff (k : BitVec 4) (a : Word) {f : Byte → Instr} (hf : ∀ x, (f x).wellFormed = true) :
    (∃ j, decodeB k a f = .instr j ∧ j.wellFormed = true) ↔ a.toNat < 256 := by
  simp [decodeB_eq_instr_iff, and_assoc, hf]

/-- After an opcode of format W every operand is legal. -/
theorem instr_legal_iff (a : Word) {i : Instr} (hi : i.wellFormed = true) :
    (∃ j, Decoded.instr i = .instr j ∧ j.wellFormed = true) ↔ a.toNat < 2 ^ 32 :=
  iff_of_true ⟨i, rfl, hi⟩ a.isLt

/-- After a reserved opcode no operand is legal. -/
theorem reserved_legal_iff (a : Word) {i : Instr} (hi : i.wellFormed = false) :
    (∃ j, Decoded.instr i = .instr j ∧ j.wellFormed = true) ↔ a.toNat < 0 := by
  simp [hi]

/-- The legal operands of each opcode, by its format. -/
theorem decodeFields_legal_iff (k : BitVec 4) (a : Word) :
    (∃ i, decodeFields k a = .instr i ∧ i.wellFormed = true) ↔ a.toNat < legalOperands k := by
  obtain rfl | rfl | rfl | rfl | rfl | rfl | rfl | rfl | rfl | rfl | rfl | rfl | rfl | rfl | rfl | rfl :=
    opcode_cases k
  · exact decodeZ_legal_iff _ a rfl
  · exact decodeZ_legal_iff _ a rfl
  · exact decodeB_legal_iff _ a fun _ => rfl
  · exact decodeZ_legal_iff _ a rfl
  · exact instr_legal_iff a rfl
  · exact decodeZ_legal_iff _ a rfl
  · exact instr_legal_iff a rfl
  · exact decodeB_legal_iff _ a fun _ => rfl
  · exact decodeZ_legal_iff _ a rfl
  · exact decodeZ_legal_iff _ a rfl
  all_goals exact reserved_legal_iff a rfl

theorem decode_legal_iff (w : CmdWord) :
    (∃ i, decode w = .instr i ∧ i.wellFormed = true) ↔ (argOf w).toNat < legalOperands (opcOf w) :=
  decodeFields_legal_iff _ _

/-! The legal words are listed by an opcode and a number below its count of operands. -/

/-- The word of an opcode and one of its legal operands. -/
def legalWord (p : Σ k : BitVec 4, Fin (legalOperands k)) : CmdWord := p.1 ++ BitVec.ofNat 32 p.2

theorem opcOf_legalWord (p : Σ k : BitVec 4, Fin (legalOperands k)) : opcOf (legalWord p) = p.1 :=
  opcOf_append _ _

theorem toNat_argOf_legalWord (p : Σ k : BitVec 4, Fin (legalOperands k)) :
    (argOf (legalWord p)).toNat = p.2 := by
  rw [legalWord, argOf_append]
  exact Nat.mod_eq_of_lt (p.2.isLt.trans_le (legalOperands_le p.1))

theorem legalWord_injective : Function.Injective legalWord := by
  rintro ⟨k, a⟩ ⟨l, c⟩ h
  obtain rfl : k = l := by simpa only [opcOf_legalWord] using congrArg opcOf h
  have hac : (a : Nat) = c := by
    simpa only [toNat_argOf_legalWord] using congrArg (fun w => (argOf w).toNat) h
  rw [Fin.ext hac]

theorem mem_range_legalWord_iff (w : CmdWord) :
    w ∈ Set.range legalWord ↔ ∃ i, decode w = .instr i ∧ i.wellFormed = true := by
  rw [decode_legal_iff]
  constructor
  · rintro ⟨p, rfl⟩
    rw [toNat_argOf_legalWord, opcOf_legalWord]
    exact p.2.isLt
  · intro h
    refine ⟨⟨opcOf w, (argOf w).toNat, h⟩, ?_⟩
    rw [legalWord, BitVec.ofNat_toNat, BitVec.setWidth_eq, opcOf_append_argOf]

theorem card_legal_words :
    Nat.card { w : CmdWord // ∃ i, decode w = .instr i ∧ i.wellFormed = true } =
      6 * 1 + 2 * 256 + 2 * 2 ^ 32 :=
  calc
    _ = Nat.card (Set.range legalWord) :=
      Nat.card_congr (Equiv.subtypeEquivRight fun w => (mem_range_legalWord_iff w).symm)
    _ = Nat.card (Σ k : BitVec 4, Fin (legalOperands k)) := Nat.card_range_of_injective legalWord_injective
    _ = ∑ k : BitVec 4, legalOperands k := by simp only [Nat.card_sigma, Nat.card_fin]
    _ = 6 * 1 + 2 * 256 + 2 * 2 ^ 32 := by decide

/-! The words that are not legal. -/

/-- The ill-formed instructions are the reserved opcodes, whose effect is that of an illegal word (R154). -/
theorem exec_of_not_wellFormed {i : Instr} (h : ¬ i.wellFormed = true) (s : State) :
    exec i s = .next s.raiseIllegal := by
  cases i with
  | reservedA | reservedB | reservedC | reservedD | reservedE | reservedF => rfl
  | _ => exact absurd rfl h

theorem execWord_of_not_legal {w : CmdWord} (h : ¬ ∃ i, decode w = .instr i ∧ i.wellFormed = true)
    (s : State) : execWord w s = .next s.raiseIllegal := by
  cases hd : decode w with
  | illegal why => exact execWord_illegal hd s
  | instr i => rw [execWord_instr hd, exec_of_not_wellFormed fun hi => h ⟨i, hd, hi⟩]

/-- Settles O29: the criterion opcode by opcode, the count by listing the words, and the failure whether the
word decodes to a reserved opcode or to no instruction. -/
theorem legalWordCriterion : Obligations.LegalWordCriterion := by
  refine ⟨fun w => ?_, card_legal_words, fun s w rest h hw => ?_⟩
  · rw [decode_legal_iff, lt_legalOperands_iff, toNat_opcOf, toNat_argOf]
  · rw [step_command h, execWord_of_not_legal hw]
    rfl

/-! ### The response word -/

theorem response_word_toNat (r : Response) :
    r.word.toNat = r.code.number.toNat * 2 ^ 32 + r.data.toNat := toNat_cmdWord _ _

theorem code_number_le (c : RspCode) : c.number.toNat ≤ 5 := by
  cases c with
  | ok => decide
  | err c => cases c <;> decide

/-- Only CKRD and STRD return data. -/
theorem effect_data_eq_zero (s : State) {i : Instr} (hr : i ≠ .ckrd) (hd : i ≠ .strd) :
    (effect s i).response.data = 0#32 := by
  cases i with
  | ckrd => exact absurd rfl hr
  | strd => exact absurd rfl hd
  | ckclr | ckupd | start | push => simp only [effect]; split_ifs <;> rfl
  | _ => rfl

/-- CKRD and STRD cannot fail, so no failure returns data. -/
theorem effect_data_of_failure (s : State) {i : Instr} (h : (effect s i).response.code ≠ .ok) :
    (effect s i).response.data = 0#32 :=
  effect_data_eq_zero s (fun hi => h (by rw [hi]; rfl)) (fun hi => h (by rw [hi]; rfl))

/-- Settles O24: a word that decodes answers the response of its instruction's effect, any other word a
failure. -/
theorem responseWordCarriesCodeAndData : Obligations.ResponseWordCarriesCodeAndData := by
  refine ⟨response_word_toNat, code_number_le, fun s w rest h => ?_⟩
  rw [step_command h]
  cases hd : decode w with
  | illegal why => exact ⟨_, ⟨.err .illegalCommand, 0#32⟩, execWord_illegal hd _, rfl, rfl⟩
  | instr i =>
    rw [execWord_instr hd, exec_eq_apply]
    refine ⟨_, _, rfl, rfl, ?_⟩
    simp only [Decoded.instr.injEq]
    split_ifs with hc hr hs
    · exact effect_data_of_failure _ hc
    · rw [hr]; rfl
    · rw [hs]; rfl
    · exact effect_data_eq_zero _ hr hs

end Sys2Proof.Proofs
end

section
/-! PROOFS. The checksum function (R100 to R102): the closed form of its two sums, and what follows from it. -/

namespace Sys2Proof.Proofs

open Sys2Proof.Machine

/-- Settles O3: `ckStep` adds bytes, and the sum of two bytes is their sum modulo 256. -/
theorem checksumStepAddsModulo256 : Obligations.ChecksumStepAddsModulo256 := by
  intro a b x
  have ha : (ckStep (a, b) x).1.toNat = (a.toNat + x.toNat) % 256 := BitVec.toNat_add a x
  exact ⟨ha, by rw [← ha]; exact BitVec.toNat_add b (a + x)⟩

/-- Settles O4: the fold over one more byte, and the width of a byte. -/
theorem fletcher8FoldsFromZero : Obligations.Fletcher8FoldsFromZero :=
  ⟨fletcher8_nil, fletcher8_concat, fun s =>
    ⟨Nat.le_of_lt_succ (fletcher8 s).1.isLt, Nat.le_of_lt_succ (fletcher8 s).2.isLt⟩⟩

/-! ### The closed form -/

/-- The first sum of R102. -/
def byteSum (d : List Byte) : Nat := (d.map BitVec.toNat).sum

/-- The second sum of R102: each byte times the number of bytes from it to the end. -/
def weightedSum (d : List Byte) : Nat := ∑ i : Fin d.length, (d.length - i.val) * (d.get i).toNat

theorem byteSum_cons (x : Byte) (d : List Byte) : byteSum (x :: d) = x.toNat + byteSum d := rfl

theorem weightedSum_cons (x : Byte) (d : List Byte) :
    weightedSum (x :: d) = (d.length + 1) * x.toNat + weightedSum d := by
  simp [weightedSum, Fin.sum_univ_succ]

theorem byteSum_perm {d e : List Byte} (h : d.Perm e) : byteSum d = byteSum e :=
  (h.map BitVec.toNat).sum_eq

theorem byteSum_replicate (n : Nat) (v : Byte) : byteSum (List.replicate n v) = n * v.toNat := by
  simp [byteSum]

/-- The weights of `n` equal bytes are `n` down to 1. -/
theorem two_mul_weightedSum_replicate (n : Nat) (v : Byte) :
    2 * weightedSum (List.replicate n v) = n * (n + 1) * v.toNat := by
  induction n with
  | zero => simp [weightedSum]
  | succ n ih =>
    rw [List.replicate_succ, weightedSum_cons, List.length_replicate, Nat.mul_add, ih]
    ring

theorem natCast_toNat (x : Byte) : ((x.toNat : Nat) : Byte) = x := by simp

/-- The first sum of a fold from any pair, in the ring of the bytes. -/
theorem foldl_ckStep_fst (p : Byte × Byte) (d : List Byte) :
    (d.foldl ckStep p).1 = p.1 + (byteSum d : Nat) := by
  induction d generalizing p with
  | nil => exact (add_zero p.1).symm
  | cons x d ih =>
    rw [List.foldl_cons, ih, byteSum_cons, Nat.cast_add, natCast_toNat, ckStep, add_assoc]

/-- The second sum of a fold from any pair: the first sum it starts from is added once for each byte. -/
theorem foldl_ckStep_snd (p : Byte × Byte) (d : List Byte) :
    (d.foldl ckStep p).2 = p.2 + (d.length : Nat) * p.1 + (weightedSum d : Nat) := by
  induction d generalizing p with
  | nil => simp [weightedSum]
  | cons x d ih =>
    rw [List.foldl_cons, ih, weightedSum_cons, List.length_cons]
    simp only [ckStep, Nat.cast_add, Nat.cast_mul, Nat.cast_one, natCast_toNat]
    ring

theorem toNat_fletcher8_fst (d : List Byte) : (fletcher8 d).1.toNat = byteSum d % 256 := by
  rw [fletcher8, foldl_ckStep_fst]
  simp

theorem toNat_fletcher8_snd (d : List Byte) : (fletcher8 d).2.toNat = weightedSum d % 256 := by
  rw [fletcher8, foldl_ckStep_snd]
  simp

/-! ### Its consequences -/

theorem fletcher8_fst_perm {d e : List Byte} (h : d.Perm e) : (fletcher8 d).1 = (fletcher8 e).1 :=
  BitVec.eq_of_toNat_eq (by rw [toNat_fletcher8_fst, toNat_fletcher8_fst, byteSum_perm h])

theorem ckStep_zero (p : Byte × Byte) : ckStep p 0#8 = (p.1, p.2 + p.1) := by simp [ckStep]

theorem fletcher8_fst_replicate_256 (v : Byte) : (fletcher8 (List.replicate 256 v)).1 = 0#8 := by
  apply BitVec.eq_of_toNat_eq
  rw [toNat_fletcher8_fst, byteSum_replicate, Nat.mul_mod_right, BitVec.toNat_ofNat]

/-- The 256 weights add up to 128 * 257, which is 128 modulo 256. -/
theorem fletcher8_snd_replicate_256 (v : Byte) :
    (fletcher8 (List.replicate 256 v)).2.toNat = (v.toNat * 128) % 256 := by
  have h := two_mul_weightedSum_replicate 256 v
  rw [toNat_fletcher8_snd]
  omega

/-- Settles O5: the two sums; two bytes exchanged show that `ck_b` depends on the order. -/
theorem fletcher8ClosedForm : Obligations.Fletcher8ClosedForm := by
  refine ⟨fun d => ⟨toNat_fletcher8_fst d, toNat_fletcher8_snd d⟩, fun d e => fletcher8_fst_perm,
    ⟨[0#8, 1#8], [1#8, 0#8], .swap _ _ _, by decide⟩, fun d => ?_, fun d => rfl,
    fun v => ⟨fletcher8_fst_replicate_256 v, fletcher8_snd_replicate_256 v⟩⟩
  rw [fletcher8_concat, ckStep_zero]
  exact ⟨rfl, rfl⟩

end Sys2Proof.Proofs
end

section
/-! PROOFS. The step on a word of a format with must-be-0 bits (R80, R154), and the checksum commands CKCLR and
CKUPD (R103, R104). -/

namespace Sys2Proof.Proofs

open Sys2Proof.Machine

/-! ### Words with must-be-0 bits -/

/-- An opcode with its operand runs what the operand decodes to. -/
theorem step_fields {s : State} {k : BitVec 4} {arg : Word} {rest : List HostEvent} {i : Instr}
    (h : s.input = .command (k ++ arg) :: rest) (hd : decodeFields k arg = .instr i) :
    step s = exec i { s with input := rest } := by
  rw [step_command h, execWord_instr ((decode_append k arg).trans hd)]

theorem step_illegal_fields {s : State} {k : BitVec 4} {arg : Word} {rest : List HostEvent}
    {why : IllegalWord} (h : s.input = .command (k ++ arg) :: rest) (hd : decodeFields k arg = .illegal why) :
    step s = .next ({ s with input := rest } : State).raiseIllegal := by
  rw [step_command h, execWord_illegal ((decode_append k arg).trans hd)]

/-- A word of a format Z opcode runs its instruction, or fails when an operand bit is set. -/
theorem step_formatZ {k : BitVec 4} {i : Instr} (hk : ∀ a, decodeFields k a = decodeZ k a i) {s : State}
    {arg : Word} {rest : List HostEvent} (h : s.input = .command (k ++ arg) :: rest) :
    (arg = 0#32 → step s = exec i { s with input := rest }) ∧
    (arg ≠ 0#32 → step s = .next { s with
      input := rest, err := s.err ||| 0b10000#5,
      responses := s.responses ++ [⟨.err .illegalCommand, 0#32⟩] }) := by
  refine ⟨fun ha => ?_, fun ha => ?_⟩
  · subst ha
    exact step_fields h (hk _)
  · exact step_illegal_fields h ((hk arg).trans (decodeZ_of_ne k arg i ha))

/-- A word of a format B opcode runs its instruction on the low byte, or fails when a higher operand bit is
set. -/
theorem step_formatB {k : BitVec 4} {f : Byte → Instr} (hk : ∀ a, decodeFields k a = decodeB k a f) {s : State}
    {arg : Word} {rest : List HostEvent} (h : s.input = .command (k ++ arg) :: rest) :
    (arg.toNat < 256 → step s = exec (f (BitVec.ofNat 8 arg.toNat)) { s with input := rest }) ∧
    (256 ≤ arg.toNat → step s = .next { s with
      input := rest, err := s.err ||| 0b10000#5,
      responses := s.responses ++ [⟨.err .illegalCommand, 0#32⟩] }) :=
  ⟨fun ha => step_fields h ((hk arg).trans (decodeB_of_lt k arg f ha)),
    fun ha => step_illegal_fields h ((hk arg).trans (decodeB_of_le k arg f ha))⟩

/-! ### CKCLR and CKUPD -/

/-- Settles O7: idle and busy are the two cases of the command, opcode 1 is of format Z. -/
theorem ckclrClearsThePairUnlessBusy : Obligations.CkclrClearsThePairUnlessBusy :=
  ⟨fun s h => execCkclr_idle s ((busy_eq_false_iff s).2 h),
    fun s h => execCkclr_busy s ((busy_eq_true_iff s).2 h),
    fun _ _ _ => step_formatZ decodeFields_1⟩

/-- Settles O8: idle and busy are the two cases of the command, opcode 2 is of format B. -/
theorem ckupdFeedsOneByteUnlessBusy : Obligations.CkupdFeedsOneByteUnlessBusy :=
  ⟨fun s x h => execCkupd_idle x s ((busy_eq_false_iff s).2 h),
    fun s x h => execCkupd_busy x s ((busy_eq_true_iff s).2 h),
    fun _ _ _ => step_formatB decodeFields_2⟩

end Sys2Proof.Proofs
end

section
/-! PROOFS. The stream invariant: kept by every step and so true of every reachable state. A packet being sent is
described by its length field, its rate and the payload so far. -/

namespace Sys2Proof.Proofs

open Sys2Proof.Machine

/-- The bytes in progress are a header for `n` bytes at rate `b` and the payload so far `p`, of which `REM` bytes
are still to come, and the pair is their checksum (R25, R132). -/
def PacketOpen (s : State) (n : Half) (b : Word) (p : List Byte) : Prop :=
  b ≠ 0#32 ∧ p.length + s.rem.toNat = n.toNat ∧
    inProgress s.out = signature ++ headerFields n b ++ p ∧
    (s.ckA, s.ckB) = fletcher8 (headerFields n b ++ p)

theorem streamInv_of_idle {s : State} (h : s.rem = 0#16) (hg : ∀ d ∈ datagrams s.out, GoodDatagram d)
    (hp : inProgress s.out = []) : s.StreamInv :=
  ⟨hg, fun _ => hp, fun hb => absurd h ((busy_eq_true_iff s).1 hb)⟩

theorem streamInv_of_packetOpen {s : State} (h : s.rem ≠ 0#16) (hg : ∀ d ∈ datagrams s.out, GoodDatagram d)
    {n : Half} {b : Word} {p : List Byte} (ho : PacketOpen s n b p) : s.StreamInv :=
  ⟨hg, fun hb => absurd ((busy_eq_false_iff s).1 hb) h, fun _ => ⟨n, b, p, ho⟩⟩

/-- The invariant speaks of the pair, `REM` and `OUT` alone. -/
theorem streamInv_of_same {s t : State} (hs : s.StreamInv) (ha : t.ckA = s.ckA) (hb : t.ckB = s.ckB)
    (hr : t.rem = s.rem) (ho : t.out = s.out) : t.StreamInv := by
  simpa only [State.StreamInv, State.busy, ha, hb, hr, ho] using hs

/-- When no payload byte is left to come, the bytes in progress and the pair are the packet. -/
theorem packetOpen_complete {s : State} {n : Half} {b : Word} {p : List Byte} (ho : PacketOpen s n b p)
    (hr : s.rem = 0#16) : GoodDatagram (inProgress s.out ++ [s.ckA, s.ckB]) := by
  obtain ⟨hb, hlen, hout, hpair⟩ := ho
  have hn : p.length = n.toNat := by rw [← hlen, hr]; rfl
  refine ⟨p, b, (encodePacket_eq_ok_iff p b _).2 ⟨hb, hn ▸ Nat.le_of_lt_succ n.isLt, ?_⟩⟩
  have hfield : BitVec.ofNat 16 p.length = n := by rw [hn, BitVec.ofNat_toNat, BitVec.setWidth_eq]
  rw [packet, packetBody, hfield, ← hpair, hout, List.append_assoc signature]

theorem inProgress_finish (s : State) : inProgress s.finish.out = [] := inProgress_append_last _ _

theorem datagrams_finish (s : State) :
    datagrams s.finish.out = datagrams s.out ++ [inProgress s.out ++ [s.ckA, s.ckB]] := by
  rw [State.finish, State.emit_out, datagrams_append_last, State.emit_out, datagrams_append_beat,
    inProgress_append_beat, List.append_assoc]
  rfl

/-- The end of START and PUSH: a packet with nothing left to come becomes a datagram. -/
theorem finishIfDone_streamInv {s : State} (hg : ∀ d ∈ datagrams s.out, GoodDatagram d)
    {n : Half} {b : Word} {p : List Byte} (ho : PacketOpen s n b p) : s.finishIfDone.StreamInv := by
  obtain ⟨hr, hf⟩ | ⟨hr, hf⟩ := finishIfDone_cases s <;> rw [hf]
  · refine streamInv_of_idle hr (fun d hd => ?_) (inProgress_finish s)
    rw [datagrams_finish, List.mem_append, List.mem_singleton] at hd
    obtain hd | rfl := hd
    · exact hg d hd
    · exact packetOpen_complete ho hr
  · exact streamInv_of_packetOpen hr hg ho

/-- The header of START opens a packet with no payload yet. -/
theorem emitHeader_packetOpen {s : State} (n : Half) (hb : s.baud ≠ 0#32) (hp : inProgress s.out = []) :
    PacketOpen ((s.emitHeader n).setRem n) n s.baud [] := by
  refine ⟨hb, Nat.zero_add _, ?_, ?_⟩
  · rw [State.setRem_out, emitHeader_eq, inProgress_append_beats, hp]
    simp
  · rw [State.setRem_ckA, State.setRem_ckB, emitHeader_eq, List.append_nil]

/-- PUSH adds a byte to the payload of the open packet. -/
theorem emitFeed_packetOpen {s : State} {n : Half} {b : Word} {p : List Byte} (ho : PacketOpen s n b p)
    (hr : s.rem ≠ 0#16) (x : Byte) :
    PacketOpen ((s.emitFeed x).setRem (s.rem - 1#16)) n b (p ++ [x]) := by
  obtain ⟨hb, hlen, hout, hpair⟩ := ho
  have hrem : (s.rem - 1#16).toNat + 1 = s.rem.toNat := by bv_omega
  refine ⟨hb, ?_, ?_, ?_⟩
  · rw [List.length_append, State.setRem_rem, List.length_singleton]
    omega
  · rw [State.setRem_out, State.emitFeed_out, inProgress_append_beat, hout, List.append_assoc]
  · rw [State.setRem_ckA, State.setRem_ckB, State.emitFeed_ckA, State.emitFeed_ckB, hpair,
      ← List.append_assoc, fletcher8_concat]

/-- Every command keeps the invariant: START opens a packet, PUSH extends it, and each turns it into a datagram
when nothing is left to come; the pair is written otherwise only when idle. -/
theorem after_streamInv {s : State} (hs : s.StreamInv) (i : Instr) : (after s i).StreamInv := by
  have ⟨hg, hidle, hbusy⟩ := hs
  obtain ⟨c, ht⟩ | ⟨-, d, ht⟩ | ⟨-, ht⟩ | ⟨-, v, k, ht⟩ | ⟨hb, -, p, ht⟩ | ⟨n, -, hb, hv, -, ht⟩ |
    ⟨x, -, hb, ht⟩ := exec_cases i s <;> rw [ht]
  iterate 4 exact streamInv_of_same hs rfl rfl rfl rfl
  · exact streamInv_of_idle ((busy_eq_false_iff s).1 hb) hg (hidle hb)
  · obtain ⟨-, hbaud⟩ := (baudValid_iff s).1 hv
    have hu := emitHeader_packetOpen (lengthField n) hbaud (hidle hb)
    refine streamInv_of_same (finishIfDone_streamInv ?_ hu) rfl rfl rfl rfl
    rw [State.setRem_out, emitHeader_eq, datagrams_append_beats]
    exact hg
  · obtain ⟨n, b, p, ho⟩ := hbusy hb
    have hu := emitFeed_packetOpen ho ((busy_eq_true_iff s).1 hb) x
    refine streamInv_of_same (finishIfDone_streamInv ?_ hu) rfl rfl rfl rfl
    rw [State.setRem_out, State.emitFeed_out, datagrams_append_beat]
    exact hg

/-- Every step keeps the invariant; a reset abandons the bytes in progress. -/
theorem step_streamInv {s t : State} (hs : s.StreamInv) (h : step s = .next t) : t.StreamInv := by
  obtain ⟨-, hst⟩ | ⟨rest, -, hst⟩ | ⟨w, rest, i, -, -, hst⟩ | ⟨w, rest, why, -, -, hst⟩ := step_cases s <;>
    obtain rfl := Host.Outcome.next.inj (hst.symm.trans h)
  · exact hs
  · obtain ⟨hg, -, -⟩ := hs
    exact streamInv_of_idle rfl (by rwa [State.takeReset_out, datagrams_append_rst])
      (inProgress_append_rst _)
  · exact after_streamInv (s := { s with input := rest }) hs i
  · exact streamInv_of_same hs rfl rfl rfl rfl

theorem reset_streamInv : State.reset.StreamInv := streamInv_of_idle rfl (by simp [State.reset]) rfl

theorem reachable_streamInv {s : State} (h : Reachable s) : s.StreamInv := by
  induction h with
  | reset => exact reset_streamInv
  | present e _ ih => exact ih
  | step _ hst ih => exact step_streamInv ih hst

end Sys2Proof.Proofs
end

section
/-! PROOFS. CKRD (R105): its answer as a number, and what the pair is in mid-packet. -/

namespace Sys2Proof.Proofs

open Sys2Proof.Machine

/-- Busy, the pair is the checksum of the bytes in progress after the signature. -/
theorem pair_of_streamInv {s : State} (h : s.StreamInv) (hr : s.rem ≠ 0#16) :
    (s.ckA, s.ckB) = fletcher8 ((inProgress s.out).drop 2) := by
  obtain ⟨-, -, hbusy⟩ := h
  obtain ⟨n, b, p, -, -, hout, hpair⟩ := hbusy ((busy_eq_true_iff s).2 hr)
  rw [hpair, hout]
  rfl

theorem pairData_eq (a b : Byte) : pairData a b = BitVec.ofNat 32 (a.toNat + 256 * b.toNat) := by
  rw [← toNat_pairData, BitVec.ofNat_toNat, BitVec.setWidth_eq]

/-- Settles O9: CKRD answers the pair, opcode 3 is of format Z, and the stream invariant says what the pair is in
mid-packet. -/
theorem ckrdReturnsThePair : Obligations.CkrdReturnsThePair := by
  refine ⟨fun s => ?_, fun s h => pair_of_streamInv (reachable_streamInv h),
    fun _ _ _ => step_formatZ decodeFields_3⟩
  rw [← pairData_eq]
  rfl

end Sys2Proof.Proofs
end

section
/-! PROOFS. The stand-alone contract (R106): what a run of the commands it allows does, built up command by
command. -/

namespace Sys2Proof.Proofs

open Sys2Proof.Machine

theorem allOk_nil (s : State) : AllOk 0 s s := ⟨[], by simp⟩

theorem allOk_one {s t : State} {d : Word} (h : t.responses = s.responses ++ [⟨.ok, d⟩]) : AllOk 1 s t :=
  ⟨_, h, rfl, by simp⟩

theorem allOk_trans {m n : Nat} {s t u : State} (h : AllOk m s t) (k : AllOk n t u) : AllOk (m + n) s u := by
  obtain ⟨rs, hr, rfl, hok⟩ := h
  obtain ⟨qs, hq, rfl, hok'⟩ := k
  refine ⟨rs ++ qs, by rw [hq, hr, List.append_assoc], List.length_append, fun r hm => ?_⟩
  exact (List.mem_append.1 hm).elim (hok r) (hok' r)

/-- The commands R106 allows between CKCLR and CKRD. -/
def StandAlone (i : Instr) : Prop := inspects i = true ∨ setsBaud i = true ∨ ∃ x, i = .ckupd x

/-- What the commands `is` of R106 do from `s` to `t`: all answer `OK`, the bytes of the CKUPD are fed, and the
rest of the state is kept but by the commands that set it. -/
structure ChecksumRun (is : List Instr) (s t : State) : Prop where
  pair : (t.ckA, t.ckB) = (is.filterMap ckupdByte).foldl ckStep (s.ckA, s.ckB)
  rem : t.rem = s.rem
  out : t.out = s.out
  baud : (∀ i ∈ is, setsBaud i = false) → t.baud = s.baud ∧ t.baudKnown = s.baudKnown
  err : .errclr ∉ is → t.err = s.err
  answers : AllOk is.length s t

theorem ChecksumRun.nil (s : State) : ChecksumRun [] s s :=
  ⟨rfl, rfl, rfl, fun _ => ⟨rfl, rfl⟩, fun _ => rfl, allOk_nil s⟩

theorem ChecksumRun.append {is js : List Instr} {s t u : State} (h : ChecksumRun is s t)
    (k : ChecksumRun js t u) : ChecksumRun (is ++ js) s u where
  pair := by rw [k.pair, h.pair, List.filterMap_append, List.foldl_append]
  rem := k.rem.trans h.rem
  out := k.out.trans h.out
  baud hb := by
    obtain ⟨his, hjs⟩ := List.forall_mem_append.1 hb
    exact ⟨(k.baud hjs).1.trans (h.baud his).1, (k.baud hjs).2.trans (h.baud his).2⟩
  err he := by
    rw [List.mem_append, not_or] at he
    exact (k.err he.2).trans (h.err he.1)
  answers := by
    rw [List.length_append]
    exact allOk_trans h.answers k.answers

/-- One command of R106 from an idle state. -/
theorem checksumRun_after {s : State} {i : Instr} (hi : StandAlone i) (hs : s.rem = 0#16) :
    ChecksumRun [i] s (after s i) := by
  cases i with
  | nop | ckrd | strd => exact ⟨rfl, rfl, rfl, fun _ => ⟨rfl, rfl⟩, fun _ => rfl, allOk_one rfl⟩
  | errclr => exact ⟨rfl, rfl, rfl, fun _ => ⟨rfl, rfl⟩, fun h => by simp at h, allOk_one rfl⟩
  | setbaud | clrbaud => exact ⟨rfl, rfl, rfl, fun h => by simp [setsBaud] at h, fun _ => rfl, allOk_one rfl⟩
  | ckupd x =>
    rw [after_ckupd_idle x s ((busy_eq_false_iff s).2 hs)]
    exact ⟨rfl, rfl, rfl, fun _ => ⟨rfl, rfl⟩, fun _ => rfl, allOk_one rfl⟩
  | ckclr | start | push | reservedA | reservedB | reservedC | reservedD | reservedE | reservedF =>
    simp [StandAlone, inspects, setsBaud] at hi

/-- The commands of R106 from an idle state, by induction on them. -/
theorem checksumRun_foldl {is : List Instr} {s : State} (his : ∀ i ∈ is, StandAlone i) (hs : s.rem = 0#16) :
    ChecksumRun is s (is.foldl after s) := by
  induction is generalizing s with
  | nil => exact .nil s
  | cons i is ih =>
    obtain ⟨hi, his⟩ := List.forall_mem_cons.1 his
    have h := checksumRun_after hi hs
    exact h.append (ih his (h.rem.trans hs))

theorem after_ckrd_response (s : State) :
    (after s .ckrd).responses.getLast? = some ⟨.ok, pairData s.ckA s.ckB⟩ := List.getLast?_concat

/-- Settles O37: after CKCLR the pair is `(0, 0)`, the commands between feed it the bytes, and CKRD answers it. -/
theorem standAloneChecksumContract : Obligations.StandAloneChecksumContract := by
  rintro s _ is hs his rfl
  have hclr := after_ckclr_idle s ((busy_eq_false_iff s).2 hs)
  have hrun : ChecksumRun is (s.setPair (0#8, 0#8)).ok (is.foldl after (after s .ckclr)) := by
    rw [hclr]
    exact checksumRun_foldl his hs
  have hfold : execAll (.ckclr :: (is ++ [.ckrd])) s =
      .next (after (is.foldl after (after s .ckclr)) .ckrd) := by
    rw [execAll_cons, execAll_append]
    exact execAll_eq_foldl [.ckrd] _
  generalize is.foldl after (after s .ckclr) = u at hrun hfold
  have hanswers : AllOk (1 + (is.length + 1)) s (after u .ckrd) :=
    allOk_trans (allOk_one rfl) (allOk_trans hrun.answers (allOk_one rfl))
  have hpair : (u.ckA, u.ckB) = fletcher8 (is.filterMap ckupdByte) := hrun.pair
  refine ⟨after u .ckrd, hfold, ?_, ?_, hrun.rem, hrun.out, hrun.baud, hrun.err⟩
  · rwa [Nat.add_comm] at hanswers
  · rw [after_ckrd_response, ← hpair, pairData]

end Sys2Proof.Proofs
end

section
/-! PROOFS. The framer's commands one at a time (R121 to R129): SETBAUD, CLRBAUD, START and PUSH case by case. -/

namespace Sys2Proof.Proofs

open Sys2Proof.Machine

/-! ### SETBAUD and CLRBAUD -/

/-- Settles O10: the command has one case, and opcode 4 is of format W. -/
theorem setbaudStoresAnyValue : Obligations.SetbaudStoresAnyValue :=
  ⟨fun _ _ => rfl, fun _ arg _ h => step_fields h (decodeFields_4 arg)⟩

/-- Settles O11: the command has one case, and opcode 5 is of format Z. -/
theorem clrbaudMarksTheRateUnresolved : Obligations.ClrbaudMarksTheRateUnresolved :=
  ⟨fun _ => rfl, fun _ _ _ => step_formatZ decodeFields_5⟩

/-! ### START -/

theorem closingBeats_done {r : Half} (p : Byte × Byte) (h : r = 0#16) :
    closingBeats p r = [.beat ⟨p.1, false⟩, .beat ⟨p.2, true⟩] := if_pos h

theorem closingBeats_open {r : Half} (p : Byte × Byte) (h : r ≠ 0#16) : closingBeats p r = [] := if_neg h

theorem baudValid_eq_false_iff (s : State) :
    s.baudValid = false ↔ s.baudKnown = false ∨ s.baud = 0#32 := by
  cases hk : s.baudKnown <;> simp [State.baudValid, hk]

theorem lengthField_eq_ofNat (n : Word) : lengthField n = BitVec.ofNat 16 n.toNat := by
  rw [lengthField, extractLsb'_eq_ofNat_div, Nat.pow_zero, Nat.div_one]

/-- No length is truncated to 0 (R124). -/
theorem lengthField_eq_zero_iff {n : Word} (h : n.toNat ≤ 65535) : lengthField n = 0#16 ↔ n = 0#32 := by
  rw [← BitVec.toNat_inj, ← BitVec.toNat_inj, toNat_lengthField n h]
  rfl

theorem le16_lengthField (n : Word) : le16 (lengthField n) = [n.extractLsb' 0 8, n.extractLsb' 8 8] := by
  rw [le16, lengthField, BitVec.extractLsb'_extractLsb'_of_le (by decide),
    BitVec.extractLsb'_extractLsb'_of_le (by decide)]

/-- A START that passes its three tests does what `startEffect` says. -/
theorem exec_start_ok {s : State} {n : Word} (hr : s.rem = 0#16) (hk : s.baudKnown = true)
    (hb : s.baud ≠ 0#32) (hn : n.toNat ≤ 65535) :
    exec (.start n) s = .next ((startEffect (lengthField n) s.baud).apply s) := by
  rw [startEffect_apply]
  exact execStart_ok n s ((busy_eq_false_iff s).2 hr) ((baudValid_iff s).2 ⟨hk, hb⟩)
    ((lengthTooLarge_eq_false_iff n).2 hn)

/-- What a START that passes its three tests emits: the header, and for length 0 the checksum. -/
theorem exec_start_ok_beats {s : State} {n : Word} (hr : s.rem = 0#16) (hk : s.baudKnown = true)
    (hb : s.baud ≠ 0#32) (hn : n.toNat ≤ 65535) {f : List Byte}
    (hf : f = headerFields (lengthField n) s.baud) :
    exec (.start n) s = .next { s with
      ckA := (fletcher8 f).1, ckB := (fletcher8 f).2, rem := lengthField n,
      out := s.out ++ ((0xB5#8 :: 0x62#8 :: f).map fun d => .beat ⟨d, false⟩) ++
        closingBeats (fletcher8 f) (lengthField n),
      responses := s.responses ++ [⟨.ok, 0#32⟩] } := by
  rw [exec_start_ok hr hk hb hn, hf, List.append_assoc]
  rfl

/-- Settles O12: one case of START for each test that fails and one for none, and opcode 6 is of format W. -/
theorem startChecksThenEmitsTheHeader : Obligations.StartChecksThenEmitsTheHeader := by
  refine ⟨fun s n hr => execStart_busy n s ((busy_eq_true_iff s).2 hr),
    fun s n hr hb => execStart_invalidConfiguration n s ((busy_eq_false_iff s).2 hr)
      ((baudValid_eq_false_iff s).2 hb),
    fun s n hr hk hb hn => execStart_payloadTooLarge n s ((busy_eq_false_iff s).2 hr)
      ((baudValid_iff s).2 ⟨hk, hb⟩) ((lengthTooLarge_iff n).2 hn),
    fun s n hr hk hb hn => ?_,
    fun _ arg _ h => step_fields h (decodeFields_6 arg)⟩
  refine ⟨headerFields (lengthField n) s.baud, by rw [headerFields, le16_lengthField]; rfl, fun h0 => ?_,
    fun h0 => ?_⟩ <;> rw [exec_start_ok_beats hr hk hb hn rfl]
  · rw [closingBeats_open _ (mt (lengthField_eq_zero_iff hn).1 h0), List.append_nil, lengthField_eq_ofNat]
  · rw [(lengthField_eq_zero_iff hn).2 h0, closingBeats_done _ rfl]

/-- Settles O13: START 0 closes the packet at once; at 9600 the packet is computed. -/
theorem startZeroEmitsTheWholePacket : Obligations.StartZeroEmitsTheWholePacket :=
  ⟨fun _ hr hk hb =>
    ⟨_, _, _, exec_start_ok_beats hr hk hb (Nat.zero_le _) rfl, rfl, rfl, rfl⟩, by decide⟩

/-! ### PUSH -/

/-- What a PUSH emits while a packet is in progress: its byte, and after the last one the checksum. -/
theorem exec_push_busy {s : State} (x : Byte) (hr : s.rem ≠ 0#16) :
    exec (.push x) s = .next ((pushEffect x (s.ckA, s.ckB) s.rem).apply s) := by
  rw [pushEffect_apply]
  exact execPush_busy x s ((busy_eq_true_iff s).2 hr)

/-- A PUSH that leaves bytes to come emits its byte alone. -/
theorem exec_push_open {s : State} (x : Byte) (hr : 2 ≤ s.rem.toNat) :
    exec (.push x) s = .next { s with
      ckA := s.ckA + x, ckB := s.ckB + (s.ckA + x), rem := BitVec.ofNat 16 (s.rem.toNat - 1),
      out := s.out ++ [.beat ⟨x, false⟩], responses := s.responses ++ [⟨.ok, 0#32⟩] } := by
  have hrem : s.rem - 1#16 = BitVec.ofNat 16 (s.rem.toNat - 1) := by bv_omega
  have hopen : BitVec.ofNat 16 (s.rem.toNat - 1) ≠ 0#16 := by bv_omega
  rw [exec_push_busy x (by bv_omega), pushEffect, hrem, closingBeats_open _ hopen]
  rfl

/-- The last PUSH of a packet emits its byte and the checksum. -/
theorem exec_push_last {s : State} (x : Byte) (hr : s.rem = 1#16) :
    exec (.push x) s = .next { s with
      ckA := s.ckA + x, ckB := s.ckB + (s.ckA + x), rem := 0#16,
      out := s.out ++ [.beat ⟨x, false⟩, .beat ⟨s.ckA + x, false⟩, .beat ⟨s.ckB + (s.ckA + x), true⟩],
      responses := s.responses ++ [⟨.ok, 0#32⟩] } := by
  have hbusy : s.rem ≠ 0#16 := by rw [hr]; decide
  rw [exec_push_busy x hbusy, pushEffect, hr, BitVec.sub_self, closingBeats_done _ rfl]
  rfl

/-- Settles O14: `REM` at least 2, 1 and 0 are the cases of PUSH, and opcode 7 is of format B. -/
theorem pushEmitsOnePayloadByte : Obligations.PushEmitsOnePayloadByte :=
  ⟨fun _ x => exec_push_open x, fun _ x hr => exec_push_last x (BitVec.eq_of_toNat_eq hr),
    fun s x hr => execPush_idle x s ((busy_eq_false_iff s).2 (BitVec.eq_of_toNat_eq hr)),
    fun _ _ _ => step_formatB decodeFields_7⟩

end Sys2Proof.Proofs
end

section
/-! PROOFS. `REM`, the pair and the last flag (R128, R133, R137): which commands move `REM`, what an idle and a
busy block keep, and the one beat with last flag 1 that ends a packet. -/

namespace Sys2Proof.Proofs

open Sys2Proof.Machine

/-! ### The commands that move `REM` -/

/-- A command keeps `REM`, loads it, or takes 1 off it; the last two answer `OK`. -/
theorem after_rem_cases (s : State) (i : Instr) :
    (after s i).rem = s.rem ∨
    (after s i).responses = s.responses ++ [⟨.ok, 0#32⟩] ∧
      ((∃ n, i = .start n ∧ s.rem = 0#16 ∧ n.toNat ≤ 65535 ∧ (after s i).rem = lengthField n) ∨
        ∃ x, i = .push x ∧ s.rem ≠ 0#16 ∧ (after s i).rem = s.rem - 1#16) := by
  obtain ⟨c, ht⟩ | ⟨-, d, ht⟩ | ⟨-, ht⟩ | ⟨-, v, k, ht⟩ | ⟨-, -, p, ht⟩ | ⟨n, hi, hb, -, hn, ht⟩ |
    ⟨x, hi, hb, ht⟩ := exec_cases i s <;> rw [ht]
  iterate 5 exact .inl rfl
  · exact .inr ⟨by simp [emitHeader_eq], .inl ⟨n, hi, (busy_eq_false_iff s).1 hb, hn, by simp⟩⟩
  · exact .inr ⟨by simp, .inr ⟨x, hi, (busy_eq_true_iff s).1 hb, by simp⟩⟩

theorem after_rem_of_idle {s : State} {i : Instr} (hs : s.rem = 0#16) (ht : (after s i).rem ≠ 0#16) :
    ∃ n : Word, i = .start n ∧ n ≠ 0#32 ∧ (after s i).rem.toNat = n.toNat := by
  obtain h | ⟨-, ⟨n, rfl, -, hn, h⟩ | ⟨x, -, hr, -⟩⟩ := after_rem_cases s i
  · exact absurd (h.trans hs) ht
  · rw [h] at ht ⊢
    exact ⟨n, rfl, mt (lengthField_eq_zero_iff hn).2 ht, toNat_lengthField n hn⟩
  · exact absurd hs hr

theorem after_rem_of_busy {s : State} {i : Instr} (hs : s.rem ≠ 0#16) (ht : (after s i).rem ≠ s.rem) :
    ∃ x : Byte, i = .push x ∧ (after s i).rem.toNat = s.rem.toNat - 1 := by
  obtain h | ⟨-, ⟨n, -, hr, -, -⟩ | ⟨x, rfl, -, h⟩⟩ := after_rem_cases s i
  · exact absurd h ht
  · exact absurd hr hs
  · exact ⟨x, rfl, by rw [h]; bv_omega⟩

theorem after_rem_of_failure {s : State} {i : Instr} {c : ErrCode} {d : Word}
    (h : (after s i).responses.getLast? = some ⟨.err c, d⟩) : (after s i).rem = s.rem := by
  obtain hr | ⟨hok, -⟩ := after_rem_cases s i
  · exact hr
  · simp [hok] at h

/-- Settles O27: the cases of `after_rem_cases`; of the steps, those that hold or fail an illegal word keep
`REM`. -/
theorem onlyStartAndPushMoveRem : Obligations.OnlyStartAndPushMoveRem := by
  refine ⟨fun i s t h => ?_, fun s t hs h ht => ?_⟩
  · obtain rfl := after_eq h
    exact ⟨after_rem_of_idle, after_rem_of_busy, fun ⟨_, _, hf⟩ => after_rem_of_failure hf⟩
  · obtain ⟨-, hst⟩ | ⟨rest, hin, hst⟩ | ⟨w, rest, i, hin, hd, hst⟩ | ⟨w, rest, why, -, -, hst⟩ :=
      step_cases s <;> obtain rfl := Host.Outcome.next.inj (hst.symm.trans h)
    · exact absurd rfl ht
    · exact .inl ⟨rest, hin, rfl⟩
    · obtain ⟨x, rfl, hrem⟩ := after_rem_of_busy (s := { s with input := rest }) hs ht
      exact .inr ⟨w, rest, x, hin, hd, hrem⟩
    · exact absurd rfl ht

/-! ### What an idle block keeps -/

/-- Idle, only a START leaves the phase or emits: PUSH is refused. -/
theorem after_idle {s : State} {i : Instr} (hs : s.rem = 0#16) (hi : ∀ n, i ≠ .start n) :
    (after s i).rem = 0#16 ∧ (after s i).out = s.out := by
  rw [← hs]
  by_contra h
  obtain ⟨n, rfl⟩ | ⟨x, rfl⟩ := after_framer_writers s i (not_and_or.1 h)
  · exact hi n rfl
  · rw [after_push_idle x s ((busy_eq_false_iff s).2 hs)] at h
    exact h ⟨rfl, rfl⟩

theorem foldl_after_idle {is : List Instr} {s : State} (hs : s.rem = 0#16)
    (his : ∀ i ∈ is, ∀ n, i ≠ .start n) :
    (is.foldl after s).rem = 0#16 ∧ (is.foldl after s).out = s.out := by
  induction is generalizing s with
  | nil => exact ⟨hs, rfl⟩
  | cons i is ih =>
    obtain ⟨hi, his⟩ := List.forall_mem_cons.1 his
    obtain ⟨hrem, hout⟩ := after_idle hs hi
    obtain ⟨hrem', hout'⟩ := ih hrem his
    exact ⟨hrem', hout'.trans hout⟩

/-- Idle, only CKCLR, CKUPD and START write the pair. -/
theorem after_idle_pair {s : State} {i : Instr} (hs : s.rem = 0#16)
    (hi : i ≠ .ckclr ∧ (∀ x, i ≠ .ckupd x) ∧ ∀ n, i ≠ .start n) :
    ((after s i).ckA, (after s i).ckB) = (s.ckA, s.ckB) := by
  obtain ⟨hclr, hupd, hstart⟩ := hi
  by_contra h
  obtain rfl | ⟨x, rfl⟩ | ⟨n, rfl⟩ | ⟨x, rfl⟩ := after_pair_writers s i h
  · exact hclr rfl
  · exact hupd x rfl
  · exact hstart n rfl
  · rw [after_push_idle x s ((busy_eq_false_iff s).2 hs)] at h
    exact h rfl

theorem foldl_after_idle_pair {is : List Instr} {s : State} (hs : s.rem = 0#16)
    (his : ∀ i ∈ is, i ≠ .ckclr ∧ (∀ x, i ≠ .ckupd x) ∧ ∀ n, i ≠ .start n) :
    ((is.foldl after s).ckA, (is.foldl after s).ckB) = (s.ckA, s.ckB) := by
  induction is generalizing s with
  | nil => rfl
  | cons i is ih =>
    obtain ⟨hi, his⟩ := List.forall_mem_cons.1 his
    have ⟨_, _, hstart⟩ := hi
    exact (ih (after_idle hs hstart).1 his).trans (after_idle_pair hs hi)

/-! ### The end of a packet -/

/-- The commands that complete a packet when they succeed (R128). -/
def Completes (s : State) (i : Instr) : Prop :=
  (∃ x, i = .push x ∧ s.rem = 1#16) ∨ i = .start 0#32

/-- A START that succeeds completes a packet when its length is 0. -/
theorem start_completes_iff {s : State} {n : Word} (hn : n.toNat ≤ 65535) :
    lengthField n = 0#16 ↔ Completes s (.start n) := by
  simp [Completes, lengthField_eq_zero_iff hn]

/-- A PUSH completes a packet when it brings `REM` to 0. -/
theorem push_completes_iff {s : State} {x : Byte} : s.rem - 1#16 = 0#16 ↔ Completes s (.push x) := by
  have h : s.rem - 1#16 = 0#16 ↔ s.rem = 1#16 := by constructor <;> intro h <;> bv_omega
  simp [Completes, h]

/-- What a command emits: nothing, and then no packet is completed; or beats with last flag 0 and the closing
beats, which are there when the command completes a packet. -/
theorem after_out_cases (s : State) (i : Instr) :
    (after s i).out = s.out ∧ (Completes s i → ∃ c, after s i = s.raise c) ∨
    (after s i).responses = s.responses ++ [⟨.ok, 0#32⟩] ∧ ((after s i).rem = 0#16 ↔ Completes s i) ∧
      ∃ f : List Byte, (after s i).out = s.out ++ (f.map (fun x => .beat ⟨x, false⟩) ++
        closingBeats ((after s i).ckA, (after s i).ckB) (after s i).rem) := by
  obtain ⟨c, ht⟩ | ⟨hi, d, ht⟩ | ⟨hi, ht⟩ | ⟨hi, v, k, ht⟩ | ⟨-, hi, p, ht⟩ | ⟨n, hi, -, -, hn, ht⟩ |
    ⟨x, hi, -, ht⟩ := exec_cases i s <;> rw [ht]
  · exact .inl ⟨rfl, fun _ => ⟨c, rfl⟩⟩
  · obtain rfl | rfl | rfl := hi <;> exact .inl ⟨rfl, by simp [Completes]⟩
  · subst hi; exact .inl ⟨rfl, by simp [Completes]⟩
  · obtain rfl | ⟨v, rfl⟩ := hi <;> exact .inl ⟨rfl, by simp [Completes]⟩
  · obtain rfl | ⟨x, rfl⟩ := hi <;> exact .inl ⟨rfl, by simp [Completes]⟩
  · subst hi
    refine .inr ⟨by simp [emitHeader_eq], by simpa using start_completes_iff hn,
      signature ++ headerFields (lengthField n) s.baud, ?_⟩
    simp [finishIfDone_eq, emitHeader_eq]
  · subst hi
    exact .inr ⟨by simp, by simpa using push_completes_iff, [x], by simp [finishIfDone_eq]⟩

/-- Some beats hold one with last flag 1. -/
def HoldsLast (bs : List OutElem) : Prop := ∃ b : Beat, .beat b ∈ bs ∧ b.last = true

theorem last_of_mem_map {f : List Byte} {b : Beat}
    (hb : OutElem.beat b ∈ f.map fun x => .beat ⟨x, false⟩) : b.last = false := by
  obtain ⟨x, -, h⟩ := List.mem_map.1 hb
  rw [← OutElem.beat.inj h]

/-- Beats with last flag 0, then the closing beats: a last flag stands there when nothing is left to come. -/
theorem holdsLast_iff (f : List Byte) (p : Byte × Byte) (r : Half) :
    HoldsLast (f.map (fun x => .beat ⟨x, false⟩) ++ closingBeats p r) ↔ r = 0#16 := by
  refine ⟨fun ⟨b, hm, hl⟩ => by_contra fun hr => ?_, fun hr => ⟨⟨p.2, true⟩, ?_, rfl⟩⟩
  · rw [closingBeats_open p hr, List.append_nil] at hm
    exact Bool.false_ne_true ((last_of_mem_map hm).symm.trans hl)
  · simp [closingBeats_done p hr]

/-- R128 for one command and the beats it appends. -/
theorem after_last_flag {s : State} {i : Instr} {bs : List OutElem} (h : (after s i).out = s.out ++ bs) :
    (HoldsLast bs ↔ (after s i).responses = s.responses ++ [⟨.ok, 0#32⟩] ∧ Completes s i) ∧
    (HoldsLast bs → (after s i).rem = 0#16 ∧ ∃ q : List OutElem,
      bs = q ++ [.beat ⟨(after s i).ckA, false⟩, .beat ⟨(after s i).ckB, true⟩] ∧
        ∀ b : Beat, .beat b ∈ q → b.last = false) := by
  obtain ⟨hout, hfail⟩ | ⟨hok, hrem, f, hout⟩ := after_out_cases s i
  · obtain rfl : bs = [] := List.self_eq_append_right.1 (hout.symm.trans h)
    have hno : ¬HoldsLast [] := by simp [HoldsLast]
    refine ⟨iff_of_false hno fun ⟨hok, hc⟩ => ?_, fun hl => absurd hl hno⟩
    obtain ⟨c, hraise⟩ := hfail hc
    simp [hraise] at hok
  · obtain rfl := List.append_cancel_left (hout.symm.trans h)
    rw [holdsLast_iff]
    refine ⟨by rw [hrem, and_iff_right hok], fun hr => ⟨hr, f.map fun x => .beat ⟨x, false⟩, ?_,
      fun _ => last_of_mem_map⟩⟩
    rw [closingBeats_done _ hr]

/-- Settles O44: the word decodes, or it fails and emits nothing. -/
theorem lastFlagMarksCompletion : Obligations.LastFlagMarksCompletion := by
  intro s t w rest bs hin h hout
  rw [step_command hin] at h
  cases hd : decode w with
  | illegal why =>
    rw [execWord_illegal hd] at h
    obtain rfl := Host.Outcome.next.inj h
    obtain rfl : bs = [] := List.self_eq_append_right.1 hout
    simp
  | instr i =>
    rw [execWord_instr hd] at h
    obtain rfl := after_eq h
    simpa [HoldsLast, Completes] using after_last_flag (s := { s with input := rest }) hout

/-- A command that completes a packet emits the pair it leaves. -/
theorem finishIfDone_ok_closes {s u : State} {o : List OutElem} (h : u.rem = 0#16) (ho : u.out = s.out ++ o) :
    u.finishIfDone.ok.rem = 0#16 ∧ u.finishIfDone.ok.out =
      s.out ++ o ++ [.beat ⟨u.finishIfDone.ok.ckA, false⟩, .beat ⟨u.finishIfDone.ok.ckB, true⟩] := by
  simp [finishIfDone_eq, h, ho, closingBeats]

/-- Settles O42: the two commands that complete a packet, and `foldl_after_idle_pair` before the CKRD. -/
theorem pairIsKeptAfterThePacket : Obligations.PairIsKeptAfterThePacket := by
  refine ⟨fun i s h => ?_, fun is s hs his => ?_⟩
  · obtain ⟨⟨x, rfl⟩, hr⟩ | ⟨rfl, hr, hk, hb⟩ := h
    · refine ⟨_, [.beat ⟨x, false⟩], execPush_busy x s ((busy_eq_true_iff s).2 (by simp [hr])),
        finishIfDone_ok_closes ?_ rfl⟩
      rw [hr]; rfl
    · refine ⟨_, (signature ++ headerFields (lengthField 0#32) s.baud).map fun x => .beat ⟨x, false⟩,
        execStart_ok 0#32 s ((busy_eq_false_iff s).2 hr) ((baudValid_iff s).2 ⟨hk, hb⟩) rfl,
        finishIfDone_ok_closes rfl ?_⟩
      rw [State.setRem_out, emitHeader_eq]
  · obtain ⟨hckA, hckB⟩ := Prod.mk.inj (foldl_after_idle_pair hs his)
    rw [execAll_append]
    refine ⟨_, execAll_eq_foldl [.ckrd] _, hckA, hckB, ?_⟩
    rw [List.foldl_cons, List.foldl_nil, after_ckrd_response, pairData, hckA, hckB]

end Sys2Proof.Proofs
end

section
/-! PROOFS. The framing theorem (R130) and what follows from it: the packet is described by the bytes fed so far,
START opens it, each PUSH adds one byte, and with nothing left to come it is the packet of `encode`. -/

namespace Sys2Proof.Proofs

open Sys2Proof.Machine

/-! ### Before the START -/

theorem setsBaud_of_inspects {i : Instr} (h : inspects i = true) : setsBaud i = false := by
  cases i with
  | nop | ckrd | strd | errclr => rfl
  | _ => exact absurd h Bool.false_ne_true

/-- The rate is set by the SETBAUD in front or was set already, and the commands up to the START keep it. -/
theorem foldl_before_start {s : State} {b : Word} {before mid : List Instr} (hs : s.rem = 0#16)
    (hbefore : before = [.setbaud b] ∨ (before = [] ∧ s.baud = b ∧ s.baudKnown = true))
    (hmid : ∀ i ∈ mid, inspects i = true) :
    ChecksumRun (before ++ mid) s ((before ++ mid).foldl after s) ∧
      ((before ++ mid).foldl after s).baud = b ∧ ((before ++ mid).foldl after s).baudKnown = true := by
  have hu : ChecksumRun before s (before.foldl after s) ∧
      (before.foldl after s).baud = b ∧ (before.foldl after s).baudKnown = true := by
    obtain rfl | ⟨rfl, hb, hk⟩ := hbefore
    · exact ⟨checksumRun_after (.inr (.inl rfl)) hs, rfl, rfl⟩
    · exact ⟨.nil s, hb, hk⟩
  obtain ⟨hrun, hb, hk⟩ := hu
  have hrun' := checksumRun_foldl (fun i hi => .inl (hmid i hi)) (hrun.rem.trans hs)
  obtain ⟨hb', hk'⟩ := hrun'.baud fun i hi => setsBaud_of_inspects (hmid i hi)
  rw [List.foldl_append]
  exact ⟨hrun.append hrun', hb'.trans hb, hk'.trans hk⟩

/-! ### The packet in progress -/

/-- After the history `o`, a packet has been opened and the bytes `f` after its signature emitted and fed; when no
payload byte is left to come the checksum stands there too. -/
def PacketSent (o : List OutElem) (f : List Byte) (s : State) : Prop :=
  (s.ckA, s.ckB) = fletcher8 f ∧
    s.out = o ++ ((signature ++ f).map (fun x => .beat ⟨x, false⟩) ++ closingBeats (s.ckA, s.ckB) s.rem)

/-- The commands R130 allows after the START. -/
def PacketCommand (i : Instr) : Prop := inspects i = true ∨ setsBaud i = true ∨ ∃ x, i = .push x

/-- What the commands `is` of R130 do from `s` to `t`: the bytes of the PUSH are added to the packet and counted
off `REM`, `ERR` is kept but by ERRCLR, and all answer `OK`. -/
structure PacketRun (is : List Instr) (s t : State) : Prop where
  sent : ∀ {o f}, PacketSent o f s → PacketSent o (f ++ is.filterMap pushByte) t
  rem : t.rem.toNat + (is.filterMap pushByte).length = s.rem.toNat
  err : .errclr ∉ is → t.err = s.err
  answers : AllOk is.length s t

theorem PacketRun.nil (s : State) : PacketRun [] s s :=
  ⟨fun h => by simpa using h, rfl, fun _ => rfl, allOk_nil s⟩

theorem PacketRun.append {is js : List Instr} {s t u : State} (h : PacketRun is s t)
    (k : PacketRun js t u) : PacketRun (is ++ js) s u where
  sent hs := by
    rw [List.filterMap_append, ← List.append_assoc]
    exact k.sent (h.sent hs)
  rem := by
    have hrem := h.rem
    have krem := k.rem
    rw [List.filterMap_append, List.length_append]
    omega
  err he := by
    rw [List.mem_append, not_or] at he
    exact (k.err he.2).trans (h.err he.1)
  answers := by
    rw [List.length_append]
    exact allOk_trans h.answers k.answers

/-- A command that is no PUSH and keeps the pair, `REM` and `OUT`. -/
theorem packetRun_of_kept {i : Instr} {s t : State} {d : Word} (hi : pushByte i = none)
    (hp : (t.ckA, t.ckB) = (s.ckA, s.ckB)) (hr : t.rem = s.rem) (ho : t.out = s.out)
    (he : i ≠ .errclr → t.err = s.err) (ha : t.responses = s.responses ++ [⟨.ok, d⟩]) : PacketRun [i] s t where
  sent h := by
    simpa only [PacketSent, hp, hr, ho, List.filterMap_cons_none hi, List.filterMap_nil, List.append_nil] using h
  rem := by rw [hr, List.filterMap_cons_none hi]; rfl
  err h := he (Ne.symm (by simpa using h))
  answers := allOk_one ha

/-- PUSH adds its byte to the packet; the closing beats come with the last one. -/
theorem packetRun_push {s : State} (x : Byte) (hr : s.rem ≠ 0#16) :
    PacketRun [.push x] s (after s (.push x)) := by
  rw [after_eq (exec_push_busy x hr)]
  refine ⟨fun ⟨hpair, hout⟩ => ⟨?_, ?_⟩, ?_, fun _ => rfl, allOk_one rfl⟩
  · exact (congrArg (ckStep · x) hpair).trans (fletcher8_concat _ x).symm
  · rw [closingBeats_open _ hr, List.append_nil] at hout
    simp [Effect.apply, pushEffect, pushByte, hout]
  · change (s.rem - 1#16).toNat + 1 = s.rem.toNat
    bv_omega

/-- One command of R130, from a state that awaits its byte if it is a PUSH. -/
theorem packetRun_after {s : State} {i : Instr} (hi : PacketCommand i)
    (hr : ([i].filterMap pushByte).length ≤ s.rem.toNat) : PacketRun [i] s (after s i) := by
  cases i with
  | nop | ckrd | strd | setbaud | clrbaud => exact packetRun_of_kept rfl rfl rfl rfl (fun _ => rfl) rfl
  | errclr => exact packetRun_of_kept rfl rfl rfl rfl (absurd rfl) rfl
  | push x =>
    have hr' : 1 ≤ s.rem.toNat := hr
    exact packetRun_push x (by bv_omega)
  | ckclr | ckupd | start | reservedA | reservedB | reservedC | reservedD | reservedE | reservedF =>
    simp [PacketCommand, inspects, setsBaud] at hi

/-- The commands of R130 with no more PUSH than `REM`, by induction on them. -/
theorem packetRun_foldl {is : List Instr} {s : State} (his : ∀ i ∈ is, PacketCommand i)
    (hr : (is.filterMap pushByte).length ≤ s.rem.toNat) : PacketRun is s (is.foldl after s) := by
  induction is generalizing s with
  | nil => exact .nil s
  | cons i is ih =>
    obtain ⟨hi, his⟩ := List.forall_mem_cons.1 his
    rw [← List.singleton_append, List.filterMap_append, List.length_append] at hr
    have h := packetRun_after hi (Nat.le_of_add_right_le hr)
    have hrem := h.rem
    exact h.append (ih his (by omega))

theorem lengthField_ofNat {n : Nat} (h : n ≤ 65535) :
    lengthField (BitVec.ofNat 32 n) = BitVec.ofNat 16 n := by
  rw [lengthField_eq_ofNat, BitVec.toNat_ofNat, Nat.mod_eq_of_lt (by omega)]

/-- START opens the packet with its header. -/
theorem start_opens_packet {s : State} {n : Nat} (hs : s.rem = 0#16) (hk : s.baudKnown = true)
    (hb : s.baud ≠ 0#32) (hn : n ≤ 65535) :
    PacketSent s.out (headerFields (BitVec.ofNat 16 n) s.baud) (after s (.start (BitVec.ofNat 32 n))) ∧
      (after s (.start (BitVec.ofNat 32 n))).rem.toNat = n ∧
      (after s (.start (BitVec.ofNat 32 n))).err = s.err ∧
      AllOk 1 s (after s (.start (BitVec.ofNat 32 n))) := by
  have hn' : (BitVec.ofNat 32 n).toNat ≤ 65535 := by
    rw [BitVec.toNat_ofNat]
    exact (Nat.mod_le _ _).trans hn
  rw [after_eq (exec_start_ok hs hk hb hn'), lengthField_ofNat hn]
  exact ⟨⟨rfl, rfl⟩, Nat.mod_eq_of_lt (Nat.lt_succ_of_le hn), rfl, allOk_one rfl⟩

/-! ### The end of the packet -/

/-- With nothing left to come, the beats after `o` are those of the packet, and the pair is its checksum. -/
theorem packetSent_complete {o : List OutElem} {p : List Byte} {b : Word} {s : State}
    (h : PacketSent o (packetBody p b) s) (hr : s.rem = 0#16) :
    s.out = o ++ packetBeats (packet p b) ∧ (packet p b).drop (8 + p.length) = [s.ckA, s.ckB] := by
  obtain ⟨hpair, hout⟩ := h
  constructor
  · rw [hout, closingBeats_done _ hr, hpair, packet_eq_packetInit_append, packetBeats_append]
    simp [packetInit]
  · have hlen : (signature ++ packetBody p b).length = 8 + p.length := by
      rw [List.length_append, packetBody_length]
      exact (Nat.add_assoc 2 6 _).symm
    rw [packet, ← hpair, ← hlen, List.drop_left]

theorem runs_tail_of_closedRun {l : List Beat} (h : ClosedRun l) : (runs l).2 = [] := by
  induction l using List.reverseRecOn with
  | nil => rfl
  | append_singleton l b _ =>
    have hb : b.last = true := by simpa [ClosedRun] using h
    rw [runs_append, if_pos hb]

/-- The beats of a packet after a closed history add one datagram. -/
theorem datagrams_append_packetBeats {o : List OutElem} (h : ClosedRun (lastSegment o)) (p : List Byte)
    (b : Word) : datagrams (o ++ packetBeats (packet p b)) = datagrams o ++ [packet p b] := by
  have hprogress : inProgress o = [] := by rw [inProgress, runs_tail_of_closedRun h]; rfl
  rw [packet_eq_packetInit_append, packetBeats_append, ← List.append_assoc, datagrams_append_last,
    datagrams_append_beats, inProgress_append_beats, hprogress, List.nil_append]

/-- Settles O40: the commands up to the START are a `ChecksumRun`, those after it a `PacketRun` that leaves
nothing to come. -/
theorem framingTheorem : Obligations.FramingTheorem := by
  rintro s b p d before mid post hs hd hbefore hmid hpost rfl
  obtain ⟨hb, hlen, rfl⟩ := (encodePacket_eq_ok_iff _ b d).1 hd
  obtain ⟨hrun, hbaud, hknown⟩ := foldl_before_start hs hbefore hmid
  rw [execAll_append, execAll_eq_foldl, List.foldl_append, List.foldl_cons, List.foldl_nil]
  generalize (before ++ mid).foldl after s = u at hrun hbaud hknown
  obtain ⟨hsent, hrem, herr, hok⟩ := start_opens_packet (hrun.rem.trans hs) hknown (hbaud ▸ hb) hlen
  generalize after u _ = v at hsent hrem herr hok
  have hpush := packetRun_foldl hpost hrem.ge
  have hdone : (post.foldl after v).rem = 0#16 := by
    have hleft := hpush.rem
    exact BitVec.eq_of_toNat_eq (show _ = 0 by omega)
  obtain ⟨hout, hpair⟩ := packetSent_complete (hpush.sent (hbaud ▸ hsent)) hdone
  rw [hrun.out] at hout
  refine ⟨_, rfl, ?_, hout, hdone, hpair, fun he => ?_, fun hc => ?_⟩
  · rw [← List.length_append]
    exact allOk_trans (allOk_trans hrun.answers hok) hpush.answers
  · rw [List.mem_append, not_or] at he
    have hbefore' : .errclr ∉ before := by obtain rfl | ⟨rfl, -, -⟩ := hbefore <;> simp
    have hmid' : .errclr ∉ before ++ mid := by rw [List.mem_append, not_or]; exact ⟨hbefore', he.1⟩
    rw [hpush.err he.2, herr, hrun.err hmid']
  · rw [hout, datagrams_append_packetBeats hc]

/-! ### ENCODE twice -/

/-- Where `encode` fails, the START reports that failure. -/
theorem after_start_of_encodePacket_error {s : State} {p : List Byte} {c : ErrCode} (hs : s.rem = 0#16)
    (hk : s.baudKnown = true) (hp : p.length < 2 ^ 32) (h : encodePacket p (some s.baud) = .error c) :
    after s (.start (BitVec.ofNat 32 p.length)) = s.raise c := by
  have hidle := (busy_eq_false_iff s).2 hs
  by_cases hb : s.baud = 0#32
  · obtain rfl : ErrCode.invalidConfiguration = c := by simpa [encodePacket, hb] using h
    exact after_start_invalidConfiguration _ s hidle ((baudValid_eq_false_iff s).2 (.inr hb))
  · by_cases hlen : 65535 < p.length
    · obtain rfl : ErrCode.payloadTooLarge = c :=
        Except.error.inj ((encodePacket_payloadTooLarge hb hlen).symm.trans h)
      refine after_start_payloadTooLarge _ s hidle ((baudValid_iff s).2 ⟨hk, hb⟩)
        ((lengthTooLarge_iff _).2 ?_)
      rwa [BitVec.toNat_ofNat, Nat.mod_eq_of_lt hp]
    · rw [(encodePacket_eq_ok_iff p s.baud _).2 ⟨hb, Nat.not_lt.1 hlen, rfl⟩] at h
      cases h

theorem filterMap_pushByte_map_push (p : List Byte) : (p.map Instr.push).filterMap pushByte = p := by
  rw [List.filterMap_map]
  exact List.filterMap_some

/-- Where `encode` fails, ENCODE from idle emits nothing: the START is refused, and so is every PUSH. -/
theorem encodeMacro_of_error {s : State} {b : Word} {p : List Byte} {c : ErrCode} (hs : s.rem = 0#16)
    (hp : p.length < 2 ^ 32) (h : encodePacket p (some b) = .error c) :
    ((encodeMacro b p).foldl after s).out = s.out := by
  rw [encodeMacro, List.foldl_cons, List.foldl_cons,
    after_start_of_encodePacket_error (s := after s (.setbaud b)) hs rfl hp h]
  have hpush : ∀ i ∈ p.map Instr.push, ∀ n, i ≠ .start n := by simp
  obtain ⟨-, hout⟩ := foldl_after_idle (s := (after s (.setbaud b)).raise c) hs hpush
  exact hout

/-- Settles O43: the beats are those of the packet `encode` gives, or none where it fails. -/
theorem encodeIsIdempotent : Obligations.EncodeIsIdempotent := by
  intro b p hp
  cases h : encodePacket p (some b) with
  | error c =>
    refine ⟨[], fun s hs => ⟨_, execAll_eq_foldl _ s, ?_⟩⟩
    rw [encodeMacro_of_error hs hp h, List.append_nil]
  | ok d =>
    refine ⟨packetBeats d, fun s hs => ?_⟩
    obtain ⟨t, ht, -, hout, -⟩ := framingTheorem s b p d [.setbaud b] [] (p.map .push) hs h (.inl rfl)
      (by simp) (by simp) (filterMap_pushByte_map_push p)
    exact ⟨t, ht, hout⟩

end Sys2Proof.Proofs
end

section
/-! PROOFS. Length agreement (R132): the length field of every datagram, and no datagram for a host that supplies
fewer bytes than it announced. -/

namespace Sys2Proof.Proofs

open Sys2Proof.Machine

/-- A datagram of `encode` has 10 bytes more than its length field says. -/
theorem goodDatagram_length {d : List Byte} (h : GoodDatagram d) :
    ∃ lo hi : Byte, d[2]? = some lo ∧ d[3]? = some hi ∧
      d.length = Config.overheadBytes + (lo.toNat + 256 * hi.toNat) := by
  obtain ⟨p, b, hd⟩ := h
  obtain ⟨-, hp, rfl⟩ := (encodePacket_eq_ok_iff p b d).1 hd
  obtain ⟨hlo, hhi⟩ := packet_length_bytes b hp
  refine ⟨_, _, hlo, hhi, ?_⟩
  rw [packet_length, BitVec.toNat_ofNat, BitVec.toNat_ofNat, Config.overheadBytes]
  omega

theorem pushByte_eq_some_iff (i : Instr) (x : Byte) : pushByte i = some x ↔ i = .push x := by
  cases i <;> simp [pushByte]

/-- Busy, only a PUSH moves `REM` or emits: START is refused. -/
theorem after_busy {s : State} {i : Instr} (hs : s.rem ≠ 0#16) (hi : pushByte i = none) :
    (after s i).rem = s.rem ∧ (after s i).out = s.out := by
  by_contra h
  obtain ⟨n, rfl⟩ | ⟨x, rfl⟩ := after_framer_writers s i (not_and_or.1 h)
  · rw [after_start_busy n s ((busy_eq_true_iff s).2 hs)] at h
    exact h ⟨rfl, rfl⟩
  · simp [pushByte] at hi

/-- A command that leaves bytes to come emits the byte of a PUSH and nothing else. -/
theorem after_short {s : State} {i : Instr} (h : ([i].filterMap pushByte).length < s.rem.toNat) :
    (after s i).rem.toNat + ([i].filterMap pushByte).length = s.rem.toNat ∧
      (after s i).out = s.out ++ ([i].filterMap pushByte).map fun x => .beat ⟨x, false⟩ := by
  cases hi : pushByte i with
  | none =>
    obtain ⟨hrem, hout⟩ := after_busy (s := s) (i := i) (by bv_omega) hi
    simp [hi, hrem, hout]
  | some x =>
    obtain rfl := (pushByte_eq_some_iff i x).1 hi
    have hopen : 2 ≤ s.rem.toNat := h
    rw [after_eq (exec_push_open x hopen)]
    refine ⟨?_, rfl⟩
    change (BitVec.ofNat 16 (s.rem.toNat - 1)).toNat + 1 = s.rem.toNat
    bv_omega

/-- Commands with fewer PUSH than `REM` emit those bytes and nothing else (R197). -/
theorem foldl_after_short {is : List Instr} {s : State} (h : (is.filterMap pushByte).length < s.rem.toNat) :
    (is.foldl after s).rem.toNat + (is.filterMap pushByte).length = s.rem.toNat ∧
      (is.foldl after s).out = s.out ++ (is.filterMap pushByte).map fun x => .beat ⟨x, false⟩ := by
  induction is generalizing s with
  | nil => simp
  | cons i is ih =>
    rw [← List.singleton_append, List.filterMap_append, List.length_append] at h ⊢
    obtain ⟨hrem, hout⟩ := after_short (s := s) (i := i) (by omega)
    obtain ⟨hrem', hout'⟩ := ih (s := after s i) (by omega)
    rw [List.singleton_append, List.foldl_cons]
    refine ⟨by omega, ?_⟩
    rw [hout', hout, List.map_append, List.append_assoc]

/-- Settles O59: every datagram of a reachable state is good, and beats with last flag 0 make no datagram. -/
theorem lengthFieldEqualsPayloadLength : Obligations.LengthFieldEqualsPayloadLength := by
  refine ⟨fun s hs d hd => ?_, fun is s t hlen h => ?_⟩
  · obtain ⟨hgood, -, -⟩ := reachable_streamInv hs
    exact goodDatagram_length (hgood d hd)
  · rw [execAll_eq_foldl] at h
    obtain rfl := Host.Outcome.next.inj h
    obtain ⟨-, hout⟩ := foldl_after_short hlen
    rw [hout, datagrams_append_beats]

end Sys2Proof.Proofs
end

section
/-! PROOFS. The system commands NOP, STRD and ERRCLR (R150, R152, R153), the illegal words (R154), and the answer
to any command: one next state, one response, a count of beats (R151). -/

namespace Sys2Proof.Proofs

open Sys2Proof.Machine

/-! ### NOP, STRD and ERRCLR -/

/-- Settles O6: the command has one case, and opcode 0 is of format Z. -/
theorem nopAnswersAndChangesNothing : Obligations.NopAnswersAndChangesNothing :=
  ⟨fun _ => rfl, fun _ _ _ => step_formatZ decodeFields_0⟩

theorem busy_toNat (s : State) : s.busy.toNat = if s.rem = 0#16 then 0 else 1 := by
  by_cases h : s.rem = 0#16 <;> simp [State.busy, h]

theorem status_eq_ofNat (s : State) :
    s.status = BitVec.ofNat 32 (s.rem.toNat + 2 ^ 16 * (if s.rem = 0#16 then 0 else 1) +
      2 ^ 17 * (if s.baudKnown then 1 else 0) + 2 ^ 24 * s.err.toNat) := by
  have hknown : s.baudKnown.toNat = if s.baudKnown then 1 else 0 := Bool.cond_eq_ite ..
  rw [← busy_toNat, ← hknown, ← toNat_status, BitVec.ofNat_toNat, BitVec.setWidth_eq]

/-- Settles O16: STRD answers the status word, whose number is `toNat_status`, and opcode 8 is of format Z. -/
theorem strdReturnsTheStatusWord : Obligations.StrdReturnsTheStatusWord := by
  refine ⟨fun s => ?_, fun _ _ _ => step_formatZ decodeFields_8⟩
  rw [← status_eq_ofNat]
  rfl

/-- Settles O17: the command has one case, and opcode 9 is of format Z. -/
theorem errclrClearsAllFlags : Obligations.ErrclrClearsAllFlags :=
  ⟨fun _ => rfl, fun _ _ _ => step_formatZ decodeFields_9⟩

/-! ### The illegal words -/

/-- Settles O19: each disjunct contradicts one of the three tests that a legal word passes, and a word that is
not legal fails. -/
theorem illegalWordsSetIllAndNothingElse : Obligations.IllegalWordsSetIllAndNothingElse := by
  obtain ⟨hlegal, -, hfail⟩ := legalWordCriterion
  refine fun s w rest h hw => hfail s w rest h fun hi => ?_
  obtain ⟨hopc, hz, hb⟩ := (hlegal w).1 hi
  obtain hreserved | ⟨hmem, harg⟩ | ⟨hmem, harg⟩ := hw
  · exact absurd hopc (Nat.not_le.2 hreserved)
  · exact harg (hz hmem)
  · exact absurd (hb hmem) (Nat.not_lt.2 harg)

/-! ### How many beats a command emits -/

theorem closingBeats_length (p : Byte × Byte) (r : Half) :
    (closingBeats p r).length = if r = 0#16 then 2 else 0 := by
  rw [closingBeats]
  split <;> rfl

theorem startEffect_beats_length {n : Word} (b : Word) (hn : n.toNat ≤ 65535) :
    (startEffect (lengthField n) b).beats.length = if n = 0#32 then 10 else 8 := by
  have hheader : (signature ++ headerFields (lengthField n) b).length = 8 := rfl
  simp only [startEffect, List.length_append, List.length_map, hheader, closingBeats_length,
    lengthField_eq_zero_iff hn]
  split <;> rfl

theorem rem_sub_one_eq_zero_iff (r : Half) : r - 1#16 = 0#16 ↔ r = 1#16 := by
  constructor <;> intro h <;> bv_omega

theorem pushEffect_beats_length (x : Byte) (p : Byte × Byte) (r : Half) :
    (pushEffect x p r).beats.length = if r = 1#16 then 3 else 1 := by
  simp only [pushEffect, List.length_cons, closingBeats_length, rem_sub_one_eq_zero_iff]
  split <;> rfl

theorem effect_start_beats_length (s : State) (n : Word) :
    (effect s (.start n)).beats.length =
      if (effect s (.start n)).response.code = .ok then if n = 0#32 then 10 else 8 else 0 := by
  cases hb : s.busy with
  | true => simp only [effect, hb]; rfl
  | false =>
    cases hv : s.baudValid with
    | false => simp only [effect, hb, hv]; rfl
    | true =>
      cases hn : lengthTooLarge n with
      | true => simp only [effect, hb, hv, hn]; rfl
      | false =>
        simp only [effect, hb, hv, hn]
        exact startEffect_beats_length _ ((lengthTooLarge_eq_false_iff n).1 hn)

theorem effect_push_beats_length (s : State) (x : Byte) :
    (effect s (.push x)).beats.length =
      if (effect s (.push x)).response.code = .ok then if s.rem = 1#16 then 3 else 1 else 0 := by
  cases hb : s.busy with
  | true => simp only [effect, hb]; exact pushEffect_beats_length x _ _
  | false => simp only [effect, hb]; rfl

theorem effect_beats_eq_nil (s : State) {i : Instr} (hs : ∀ n, i ≠ .start n) (hp : ∀ x, i ≠ .push x) :
    (effect s i).beats = [] := by
  cases i with
  | start n => exact absurd rfl (hs n)
  | push x => exact absurd rfl (hp x)
  | ckclr | ckupd => simp only [effect]; split <;> rfl
  | _ => rfl

/-- Settles O23: a word that decodes has the response and the beats of its instruction's effect, any other word
fails and emits nothing. -/
theorem everyCommandAnswersExactlyOnce : Obligations.EveryCommandAnswersExactlyOnce := by
  intro s w rest h
  rw [step_command h]
  cases hd : decode w with
  | illegal why =>
    exact ⟨_, ⟨.err .illegalCommand, 0#32⟩, [], execWord_illegal hd _, rfl, rfl, (List.append_nil _).symm, rfl⟩
  | instr i =>
    rw [execWord_instr hd, exec_eq_apply]
    refine ⟨_, _, _, rfl, rfl, rfl, rfl, ?_⟩
    cases i with
    | start n => exact effect_start_beats_length _ n
    | push x => exact effect_push_beats_length _ x
    | _ => rw [effect_beats_eq_nil _ (by simp) (by simp)]; exact (ite_self 0).symm

end Sys2Proof.Proofs
end

section
/-! PROOFS. The failures (R160 to R168): the whole effect of a failed command, and which one code a command word
reports. -/

namespace Sys2Proof.Proofs

open Sys2Proof.Machine

/-! ### The whole effect of a failed command -/

theorem flag_eq_twoPow (c : ErrCode) : c.flag = BitVec.twoPow 5 ((RspCode.err c).number.toNat - 1) := by
  cases c <;> rfl

/-- A command word fails as `State.raise` says, or its one response is `OK`. -/
theorem execWord_raises_or_answers_ok (w : CmdWord) (s : State) :
    (∃ c, execWord w s = .next (s.raise c)) ∨
    ∃ t d, execWord w s = .next t ∧ t.responses = s.responses ++ [⟨.ok, d⟩] := by
  cases hd : decode w with
  | illegal why => exact .inl ⟨_, execWord_illegal hd s⟩
  | instr i =>
    rw [execWord_instr hd, exec_eq_after]
    obtain ⟨c, ht⟩ | ⟨d, ht, -⟩ := after_fails_or_keeps_flags s i
    · exact .inl ⟨c, by rw [ht]⟩
    · exact .inr ⟨_, d, rfl, ht⟩

/-- A command word that answers a failure code does what `State.raise` does for that code. -/
theorem eq_raise_of_execWord {w : CmdWord} {s t : State} {c : ErrCode} {d : Word} (h : execWord w s = .next t)
    (hr : t.responses = s.responses ++ [⟨.err c, d⟩]) : d = 0#32 ∧ t = s.raise c := by
  obtain ⟨c', hw⟩ | ⟨u, d', hw, hok⟩ := execWord_raises_or_answers_ok w s <;>
    obtain rfl := Host.Outcome.next.inj (hw.symm.trans h)
  · obtain ⟨rfl, rfl⟩ : c' = c ∧ 0#32 = d := by simpa using hr
    exact ⟨rfl, rfl⟩
  · simp [hok] at hr

/-- Settles O20: the failure is `State.raise` on the state that has taken the word, and its flag is bit `c - 1`. -/
theorem failedCommandSetsOneFlag : Obligations.FailedCommandSetsOneFlag := by
  intro s t w rest c d hin hst hr
  rw [step_command hin] at hst
  obtain ⟨rfl, rfl⟩ := eq_raise_of_execWord hst hr
  rw [← flag_eq_twoPow]
  exact ⟨rfl, rfl⟩

/-! ### The first failure in order -/

/-- A byte operand that passes format B's test is the whole operand. -/
theorem setWidth_byte_of_lt {a : Word} (h : a.toNat < 256) :
    (BitVec.ofNat 8 a.toNat).setWidth 32 = a := by bv_omega

theorem fields_of_decodeZ {k : BitVec 4} {a : Word} {i j : Instr} (h : decodeZ k a j = .instr i)
    (ho : j.opcode = k) (ha : j.arg = 0#32) : i.opcode = k ∧ i.arg = a := by
  obtain ⟨rfl, rfl⟩ := (decodeZ_eq_instr_iff ..).1 h
  exact ⟨ho, ha⟩

theorem fields_of_decodeB {k : BitVec 4} {a : Word} {i : Instr} {f : Byte → Instr}
    (h : decodeB k a f = .instr i) (ho : ∀ x, (f x).opcode = k) (ha : ∀ x, (f x).arg = x.setWidth 32) :
    i.opcode = k ∧ i.arg = a := by
  obtain ⟨hlt, rfl⟩ := (decodeB_eq_instr_iff ..).1 h
  exact ⟨ho _, (ha _).trans (setWidth_byte_of_lt hlt)⟩

/-- Format W and the reserved opcodes take the operand as it is. -/
theorem fields_of_instr {k : BitVec 4} {a : Word} {i j : Instr} (h : Decoded.instr j = .instr i)
    (ho : j.opcode = k) (ha : j.arg = a) : i.opcode = k ∧ i.arg = a := by
  obtain rfl := Decoded.instr.inj h
  exact ⟨ho, ha⟩

/-- The fields of the instruction are those of the word, by the opcode's format. -/
theorem fields_of_decodeFields {k : BitVec 4} {a : Word} {i : Instr} (h : decodeFields k a = .instr i) :
    i.opcode = k ∧ i.arg = a := by
  obtain rfl | rfl | rfl | rfl | rfl | rfl | rfl | rfl | rfl | rfl | rfl | rfl | rfl | rfl | rfl | rfl :=
    opcode_cases k
  · exact fields_of_decodeZ h rfl rfl
  · exact fields_of_decodeZ h rfl rfl
  · exact fields_of_decodeB h (fun _ => rfl) fun _ => rfl
  · exact fields_of_decodeZ h rfl rfl
  · exact fields_of_instr h rfl rfl
  · exact fields_of_decodeZ h rfl rfl
  · exact fields_of_instr h rfl rfl
  · exact fields_of_decodeB h (fun _ => rfl) fun _ => rfl
  · exact fields_of_decodeZ h rfl rfl
  · exact fields_of_decodeZ h rfl rfl
  all_goals exact fields_of_instr h rfl rfl

theorem opcode_toNat_of_decode {w : CmdWord} {i : Instr} (h : decode w = .instr i) :
    i.opcode.toNat = w.toNat / 2 ^ 32 := by
  rw [(fields_of_decodeFields h).1, toNat_opcOf]

theorem arg_toNat_of_decode {w : CmdWord} {i : Instr} (h : decode w = .instr i) :
    i.arg.toNat = w.toNat % 2 ^ 32 := by
  rw [(fields_of_decodeFields h).2, toNat_argOf]

/-- The fields of an illegal word (R80): a reserved opcode, or a must-be-0 bit that is 1. -/
abbrev IllegalFields (opc arg : Nat) : Prop :=
  10 ≤ opc ∨ (opc ∈ [0, 1, 3, 5, 8, 9] ∧ arg ≠ 0) ∨ (opc ∈ [2, 7] ∧ 256 ≤ arg)

theorem exists_legal_instr {w : CmdWord} (h : ¬ IllegalFields (w.toNat / 2 ^ 32) (w.toNat % 2 ^ 32)) :
    ∃ i, decode w = .instr i ∧ i.wellFormed = true := by
  obtain ⟨hopc, hz, hb⟩ : _ ∧ _ ∧ _ := by simpa only [not_or, not_and, not_not, not_le] using h
  exact (legalWordCriterion.1 w).2 ⟨Nat.le_of_lt_succ hopc, hz, hb⟩

/-- The order of R166 for a legal word with the given fields, the tests that read the state: `Busy` or `Sequence`,
`InvalidConfiguration`, `PayloadTooLarge`, `OK`. -/
def codeInOrder (s : State) (opc arg : Nat) : RspCode :=
  if opc ∈ [1, 2, 6] ∧ s.rem ≠ 0#16 then .err .busy
  else if opc = 7 ∧ s.rem = 0#16 then .err .sequence
  else if opc = 6 ∧ ¬(s.baudKnown = true ∧ s.baud ≠ 0#32) then .err .invalidConfiguration
  else if opc = 6 ∧ 65535 < arg then .err .payloadTooLarge
  else .ok

@[simp] theorem fail_response (c : ErrCode) : (Effect.fail c).response = ⟨.err c, 0#32⟩ := rfl

@[simp] theorem startEffect_response (n : Half) (b : Word) : (startEffect n b).response = ⟨.ok, 0#32⟩ := rfl

@[simp] theorem pushEffect_response (x : Byte) (p : Byte × Byte) (r : Half) :
    (pushEffect x p r).response = ⟨.ok, 0#32⟩ := rfl

/-- START makes its tests in the order of R166. -/
theorem effect_start_code (s : State) (n : Word) :
    (effect s (.start n)).response.code = codeInOrder s 6 n.toNat := by
  cases hb : s.busy with
  | true => simp [effect, codeInOrder, hb, (busy_eq_true_iff s).1 hb]
  | false =>
    have hr := (busy_eq_false_iff s).1 hb
    cases hv : s.baudValid with
    | false => simp [effect, codeInOrder, hb, hr, hv, ← baudValid_iff]
    | true =>
      cases hn : lengthTooLarge n <;>
        simp [effect, codeInOrder, hb, hr, hv, hn, ← baudValid_iff, ← lengthTooLarge_iff]

/-- A legal command answers the first code in the order of R166; a `REM` of 0 or not decides for the three other
commands that can fail. -/
theorem effect_code_eq_codeInOrder (s : State) {i : Instr} (hi : i.wellFormed = true) :
    (effect s i).response.code = codeInOrder s i.opcode.toNat i.arg.toNat := by
  cases i with
  | ckclr | ckupd | push =>
    by_cases hr : s.rem = 0#16 <;> simp [effect, codeInOrder, Instr.opcode, State.busy, hr]
  | start n => exact effect_start_code s n
  | nop | ckrd | setbaud | clrbaud | strd | errclr => simp [effect, codeInOrder, Instr.opcode]
  | reservedA | reservedB | reservedC | reservedD | reservedE | reservedF => cases hi

/-- No command reads what the host has yet to present. -/
theorem effect_with_input (s : State) (l : List HostEvent) (i : Instr) :
    effect { s with input := l } i = effect s i := by
  cases i <;> rfl

theorem step_answers_effect_code {s : State} {w : CmdWord} {rest : List HostEvent} {i : Instr}
    (h : s.input = .command w :: rest) (hd : decode w = .instr i) :
    ∃ t d, step s = .next t ∧ t.responses = s.responses ++ [⟨(effect s i).response.code, d⟩] := by
  rw [step_command h, execWord_instr hd, exec_eq_apply, effect_with_input]
  exact ⟨_, _, rfl, rfl⟩

/-- Settles O21: an illegal word fails before any state is read; a legal one runs the instruction with its opcode
and operand, whose code is the first in order. -/
theorem firstFailureInOrderIsReported : Obligations.FirstFailureInOrderIsReported := by
  rintro s w rest opc arg hin rfl rfl
  by_cases hill : IllegalFields (w.toNat / 2 ^ 32) (w.toNat % 2 ^ 32)
  · exact ⟨_, 0#32, illegalWordsSetIllAndNothingElse s w rest hin hill, by rw [if_pos hill]⟩
  · obtain ⟨i, hd, hi⟩ := exists_legal_instr hill
    obtain ⟨t, d, hst, ht⟩ := step_answers_effect_code hin hd
    rw [effect_code_eq_codeInOrder s hi, opcode_toNat_of_decode hd, arg_toNat_of_decode hd] at ht
    exact ⟨t, d, hst, by rw [if_neg hill]; exact ht⟩

end Sys2Proof.Proofs
end

section
/-! PROOFS. Reset in mid-packet and the hazards of a host that miscounts (R192, R197, R198, R202): what too few
and too many PUSH leave, the packet after a reset, and what ended well means for the history. -/

namespace Sys2Proof.Proofs

open Sys2Proof.Machine

theorem endedWell_iff (s : State) : s.endedWell = true ↔ s.rem = 0#16 := by
  simp [State.endedWell, busy_eq_false_iff]

/-! ### Too few bytes, and too many -/

/-- Busy, the block refuses the commands that would disturb the packet in progress (R167). -/
theorem exec_refused_busy {s : State} {i : Instr} (hr : s.rem ≠ 0#16)
    (hi : i = .ckclr ∨ (∃ x, i = .ckupd x) ∨ ∃ n, i = .start n) : exec i s = .next (s.raise .busy) := by
  have hb := (busy_eq_true_iff s).2 hr
  obtain rfl | ⟨x, rfl⟩ | ⟨n, rfl⟩ := hi
  · exact execCkclr_busy s hb
  · exact execCkupd_busy x s hb
  · exact execStart_busy n s hb

/-- Settles O47: `foldl_after_short` gives `REM` and the beats; beats with last flag 0 make no datagram, and a
`REM` that is not 0 keeps the block busy. -/
theorem tooFewBytesLeaveTheBlockBusy : Obligations.TooFewBytesLeaveTheBlockBusy := by
  intro is s t hlen h
  rw [execAll_eq_foldl] at h
  obtain rfl := Host.Outcome.next.inj h
  obtain ⟨hrem, hout⟩ := foldl_after_short hlen
  have hopen : (is.foldl after s).rem ≠ 0#16 := by bv_omega
  refine ⟨by omega, ?_, hout, by rw [hout, datagrams_append_beats], fun i => exec_refused_busy hopen⟩
  rwa [← Bool.not_eq_true, endedWell_iff]

/-- Settles O48, by induction on the bytes: each PUSH is refused and leaves the block idle, and the flag it sets
stays set. -/
theorem tooManyBytesAreNotSent : Obligations.TooManyBytesAreNotSent := by
  intro p
  induction p with
  | nil =>
    intro s _
    simp [execAll]
  | cons x p ih =>
    intro s hs
    rw [List.map_cons, execAll_cons, after_push_idle x s ((busy_eq_false_iff s).2 hs), ih (s.raise .sequence) hs]
    have hflag : (s.err ||| 0b01000#5) ||| 0b01000#5 = s.err ||| 0b01000#5 := by
      rw [BitVec.or_assoc, BitVec.or_self]
    simp [State.raise, State.setFlag, State.respond, ErrCode.flag, hflag, List.replicate_succ]

/-! ### The packet after a reset -/

/-- ENCODE from an idle state whose beats since the last reset are whole packets adds its own datagram (R130). -/
theorem encodeMacro_adds_datagram {s : State} {b : Word} {p d : List Byte} (hs : s.rem = 0#16)
    (hc : ClosedRun (lastSegment s.out)) (hd : encodePacket p (some b) = .ok d) :
    ∃ t : State, execAll (encodeMacro b p) s = .next t ∧ datagrams t.out = datagrams s.out ++ [d] := by
  obtain ⟨t, ht, -, -, -, -, -, hdatagrams⟩ := framingTheorem s b p d [.setbaud b] [] (p.map .push) hs hd
    (.inl rfl) (by simp) (by simp) (filterMap_pushByte_map_push p)
  exact ⟨t, ht, hdatagrams hc⟩

/-- Settles O51: the marker `Rst` ends the segment of the abandoned bytes without a datagram, and the next packet
begins in an empty one. -/
theorem abandonedPacketFormsNoDatagram : Obligations.AbandonedPacketFormsNoDatagram := by
  intro s rest h
  refine ⟨_, step_reset h, datagrams_append_rst s.out, inProgress_append_rst s.out, fun b p d hd => ?_⟩
  have hclosed : ClosedRun (lastSegment (s.out ++ [.rst])) := .inl (lastSegment_append_rst s.out)
  have ht := encodeMacro_adds_datagram (s := ({ s with input := rest } : State).takeReset) rfl hclosed hd
  rwa [State.takeReset_out, datagrams_append_rst] at ht

/-! ### A good end -/

/-- A segment without a tail is its runs. -/
theorem runs_flatten_of_closedRun {l : List Beat} (h : ClosedRun l) : l = (runs l).1.flatten := by
  have hl := runs_flatten_append_tail l
  rw [runs_tail_of_closedRun h, List.append_nil] at hl
  exact hl.symm

/-- Settles O52: the stream invariant says what is in progress and which datagrams there are, and the shape of
`OUT` that the beats since the last reset are whole runs. -/
theorem runsEndWellExactlyWhenIdle : Obligations.RunsEndWellExactlyWhenIdle := by
  intro s hreach
  obtain ⟨hgood, hidle, hbusy⟩ := reachable_streamInv hreach
  obtain ⟨-, hclosed⟩ := reachable_outShape hreach
  refine ⟨endedWell_iff s, fun hend => ?_, fun hr => ?_⟩
  · have hb := (busy_eq_false_iff s).2 ((endedWell_iff s).1 hend)
    exact ⟨hidle hb, runs_flatten_of_closedRun (hclosed hb), hgood⟩
  · obtain ⟨n, b, p, -, hlen, hout, -⟩ := hbusy ((busy_eq_true_iff s).2 hr)
    refine ⟨n, b, p, hout, ?_⟩
    have hheader : (signature ++ headerFields n b ++ p).length = 8 + p.length := by
      rw [List.length_append]
      rfl
    rw [hout, hheader, Nat.add_assoc, hlen]

end Sys2Proof.Proofs
end

section
/-! PROOFS. Decoding and encoding (R77 to R80): each undoes the other, and a word decodes into the row of the opcode
table to which its bits belong. -/

namespace Sys2Proof.Proofs

open Sys2Proof.Machine

/-- Settles O30: `decode_encode`, the round trip format by format. -/
theorem decodeOfEncode : Obligations.DecodeOfEncode := decode_encode

/-- Settles O31: the instruction has the opcode and the operand of the word, and these are the whole word. -/
theorem encodeOfDecode : Obligations.EncodeOfDecode := by
  intro w i h
  obtain ⟨hopc, harg⟩ := fields_of_decodeFields h
  rw [encode, hopc, harg, opcOf_append_argOf]

/-- Decoding and encoding are inverse to each other. -/
theorem decode_eq_instr_iff (w : CmdWord) (i : Instr) : decode w = .instr i ↔ encode i = w := by
  refine ⟨encodeOfDecode w i, fun h => ?_⟩
  rw [← h, decode_encode]

/-! ### The rows of the opcode table -/

/-- The bits of a row are its opcode. -/
theorem row_bits_eq (i : Instr) : i.row.bits = (i.opcode ++ 0#32 : CmdWord) := by
  cases i <;> simp only [Instr.row, Instr.opcode] <;> decide

/-- The encoding of an instruction belongs to the row of that instruction. -/
theorem encode_and_mask (i : Instr) : encode i &&& i.row.mask = i.row.bits := by
  rw [row_bits_eq]
  cases i with
  | nop | ckclr | ckrd | clrbaud | strd | errclr => exact BitVec.and_allOnes
  | ckupd x | push x => exact Laws.EncodingRow.byte_row _ x
  | setbaud a | start a | reservedA a | reservedB a | reservedC a | reservedD a | reservedE a | reservedF a =>
    exact Laws.EncodingRow.opcode_row _ a

/-- A word of a format Z row is the row's opcode alone: the mask keeps the whole word. -/
theorem eq_of_word_mask {w : CmdWord} {k : BitVec 4} (h : w &&& 0xFFFFFFFFF#36 = (k ++ 0#32 : CmdWord)) :
    (k ++ 0#32 : CmdWord) = w :=
  h.symm.trans BitVec.and_allOnes

/-- A word of a format W or a reserved row is the row's opcode and some operand. -/
theorem eq_of_opcode_mask {w : CmdWord} {k : BitVec 4} (h : w &&& 0xF00000000#36 = (k ++ 0#32 : CmdWord)) :
    (k ++ argOf w : CmdWord) = w := by
  have hw := Laws.EncodingRow.opcode_row (opcOf w) (argOf w)
  rw [opcOf_append_argOf, h] at hw
  have hk : k = opcOf w := by simpa only [opcOf_append] using congrArg opcOf hw
  rw [hk, opcOf_append_argOf]

/-- Under the mask of format B a word keeps all but its low byte. -/
theorem toNat_and_byte_mask (w : CmdWord) : (w &&& 0xFFFFFFF00#36).toNat = w.toNat / 2 ^ 8 * 2 ^ 8 := by
  have hw := w.isLt
  have hmask : (0xFFFFFFF00#36).toNat = (2 ^ 28 - 1) <<< 8 := by decide
  have h := Laws.EncodingRow.and_highMask (w.toNat / 2 ^ 8) (w.toNat % 2 ^ 8) 8 28
    (Nat.mod_lt _ (by decide)) (Nat.div_lt_of_lt_mul hw)
  rwa [Nat.div_add_mod', ← hmask, ← BitVec.toNat_and] at h

/-- A word of a format B row is the row's opcode and some byte. -/
theorem eq_of_byte_mask {w : CmdWord} {k : BitVec 4} (h : w &&& 0xFFFFFFF00#36 = (k ++ 0#32 : CmdWord)) :
    (k ++ ((BitVec.ofNat 8 w.toNat).setWidth 32 : Word) : CmdWord) = w := by
  have hhigh : w.toNat / 2 ^ 8 * 2 ^ 8 = k.toNat * 2 ^ 32 := by
    rw [← toNat_and_byte_mask, h, toNat_cmdWord, BitVec.toNat_zero, Nat.add_zero]
  apply BitVec.eq_of_toNat_eq
  rw [toNat_cmdWord, BitVec.toNat_setWidth_of_le (by decide), BitVec.toNat_ofNat, ← hhigh, Nat.div_add_mod']

/-- Every word of a row is the encoding of an instruction of that row. -/
theorem exists_encode_of_row {w : CmdWord} (j : Instr) (h : w &&& j.row.mask = j.row.bits) :
    ∃ i, encode i = w ∧ i.row = j.row := by
  rw [row_bits_eq] at h
  cases j with
  | nop => exact ⟨.nop, eq_of_word_mask h, rfl⟩
  | ckclr => exact ⟨.ckclr, eq_of_word_mask h, rfl⟩
  | ckupd => exact ⟨.ckupd _, eq_of_byte_mask h, rfl⟩
  | ckrd => exact ⟨.ckrd, eq_of_word_mask h, rfl⟩
  | setbaud => exact ⟨.setbaud _, eq_of_opcode_mask h, rfl⟩
  | clrbaud => exact ⟨.clrbaud, eq_of_word_mask h, rfl⟩
  | start => exact ⟨.start _, eq_of_opcode_mask h, rfl⟩
  | push => exact ⟨.push _, eq_of_byte_mask h, rfl⟩
  | strd => exact ⟨.strd, eq_of_word_mask h, rfl⟩
  | errclr => exact ⟨.errclr, eq_of_word_mask h, rfl⟩
  | reservedA => exact ⟨.reservedA _, eq_of_opcode_mask h, rfl⟩
  | reservedB => exact ⟨.reservedB _, eq_of_opcode_mask h, rfl⟩
  | reservedC => exact ⟨.reservedC _, eq_of_opcode_mask h, rfl⟩
  | reservedD => exact ⟨.reservedD _, eq_of_opcode_mask h, rfl⟩
  | reservedE => exact ⟨.reservedE _, eq_of_opcode_mask h, rfl⟩
  | reservedF => exact ⟨.reservedF _, eq_of_opcode_mask h, rfl⟩

/-- Settles O32: the words that decode into a row are the encodings of its instructions, and these are the words
with the row's bits under its mask. -/
theorem decodeFollowsTheOpcodeTable : Obligations.DecodeFollowsTheOpcodeTable := by
  intro w j
  simp only [decode_eq_instr_iff]
  refine ⟨?_, exists_encode_of_row j⟩
  rintro ⟨i, rfl, hrow⟩
  rw [← hrow, encode_and_mask]

/-- Settles O33: six of the words are encodings, and the last is PUSH with an operand above 255. -/
theorem writtenWordsDecode : Obligations.WrittenWordsDecode :=
  ⟨decode_encode (.setbaud 9600#32), decode_encode (.start 1#32), decode_encode (.push 0x41#8),
    decode_encode .ckrd, decode_encode .strd, decode_encode (.reservedF 0x12345678#32),
    decodeB_of_le 0x7#4 0x1FF#32 .push (by decide)⟩

end Sys2Proof.Proofs
end

section
/-! PROOFS. The invariants of the output history: R31's shape and the stream invariant hold at power-on and are kept
by every step; so only whole packets are sent. The history itself only grows (R29, R191). -/

namespace Sys2Proof.Proofs

open Sys2Proof.Machine

/-- Settles O54: `step_outShape`, case by case of what a step can do. -/
theorem stepKeepsOutShape : Obligations.StepKeepsOutShape := fun _ _ => step_outShape

/-- Settles O57: `step_streamInv`, case by case of what a step can do. -/
theorem stepKeepsStreamInv : Obligations.StepKeepsStreamInv := fun _ _ => step_streamInv

/-- Settles O53: power-on is a reachable state. -/
theorem outShapeAtReset : Obligations.OutShapeAtReset := reachable_outShape .reset

/-- Settles O56: `reset_streamInv`, for an empty history. -/
theorem streamInvAtReset : Obligations.StreamInvAtReset := reset_streamInv

/-- Settles O58: every datagram of a reachable state is one that `encode` gives, which it does for a legal rate
and payload alone. -/
theorem onlyWholePacketsAreEverSent : Obligations.OnlyWholePacketsAreEverSent := by
  intro s hs d hd
  obtain ⟨hgood, -, -⟩ := reachable_streamInv hs
  obtain ⟨p, b, hencode⟩ := hgood d hd
  obtain ⟨hb, hp, -⟩ := (encodePacket_eq_ok_iff p b d).1 hencode
  exact ⟨p, b, hb, hp, hencode⟩

theorem rst_notMem_closingBeats (p : Byte × Byte) (r : Half) : .rst ∉ closingBeats p r := by
  rw [closingBeats]
  split <;> simp

/-- A command appends to the history beats alone. -/
theorem after_out_grows (s : State) (i : Instr) : ∃ bs, (after s i).out = s.out ++ bs ∧ .rst ∉ bs := by
  obtain ⟨hout, -⟩ | ⟨-, -, f, hout⟩ := after_out_cases s i
  · exact ⟨[], by rw [hout, List.append_nil], List.not_mem_nil⟩
  · exact ⟨_, hout, by simp [rst_notMem_closingBeats]⟩

/-- Settles O49: a reset appends its marker, a command beats alone, and the other steps nothing. -/
theorem outputOnlyGrows : Obligations.OutputOnlyGrows := by
  intro s t h
  obtain ⟨-, hst⟩ | ⟨rest, hin, hst⟩ | ⟨w, rest, i, -, -, hst⟩ | ⟨w, rest, why, -, -, hst⟩ := step_cases s <;>
    obtain rfl := Host.Outcome.next.inj (hst.symm.trans h)
  · exact ⟨[], (List.append_nil _).symm, by simp⟩
  · exact ⟨[.rst], rfl, fun _ => ⟨rfl, rest, hin⟩⟩
  · obtain ⟨bs, hout, hbs⟩ := after_out_grows { s with input := rest } i
    exact ⟨bs, hout, fun hrst => absurd hrst hbs⟩
  · exact ⟨[], (List.append_nil _).symm, by simp⟩

end Sys2Proof.Proofs
end

section
/-! PROOFS. What a step takes from the host (R57, R154, R190): a command, an illegal word, a reset, or nothing. -/

namespace Sys2Proof.Proofs

open Sys2Proof.Machine

/-- Settles O2: the step is `State.takeReset`, and the marker makes no datagram. -/
theorem resetAppendsOneMarker : Obligations.ResetAppendsOneMarker :=
  fun s _ h => ⟨_, step_reset h, rfl, datagrams_append_rst s.out, rfl, rfl⟩

/-- Settles O18: the reserved opcodes are not well formed, and `State.raiseIllegal` is their whole effect. -/
theorem reservedOpcodesFail : Obligations.ReservedOpcodesFail := by
  intro s a i hi
  have hill : ¬ i.wellFormed = true := by
    obtain rfl | rfl | rfl | rfl | rfl | rfl := hi <;> exact Bool.false_ne_true
  exact exec_of_not_wellFormed hill s

/-- Settles O34: one case for each event, and one for none. -/
theorem stepRunsTheDecodedCommand : Obligations.StepRunsTheDecodedCommand := by
  intro s
  refine ⟨fun w rest i h hd => ?_, fun w rest why h hd => ?_, fun rest h => step_reset h, step_hold⟩
  · rw [step_command h, execWord_instr hd]
  · rw [step_command h]
    exact execWord_illegal hd _

theorem decode_of_decodeTableWord {nbits w : Nat} {i : Instr} (h : decodeTableWord nbits w = some i) :
    decode (tableWord nbits w) = .instr i := by
  unfold decodeTableWord at h
  split_ifs at h
  cases hd : decode (tableWord nbits w) with
  | instr j => simpa [hd] using h
  | illegal why => simp [hd] at h

/-- Settles O35: the word presented is the first event, and the step that takes it runs what it decodes to. -/
theorem fetchWordIsTheNextCommand : Obligations.FetchWordIsTheNextCommand := by
  intro s nbits w i h
  have hin : (s.withFetchWord nbits w).input = .command (tableWord nbits w) :: s.input := rfl
  rw [step_command hin]
  exact execWord_instr (decode_of_decodeTableWord h) s

end Sys2Proof.Proofs
end

section
/-! PROOFS. The pair is the checksum of the bytes fed since its last clear (R107). -/

namespace Sys2Proof.Proofs

open Sys2Proof.Machine

theorem after_start_fletcher8 {s : State} {fed : List Byte} (h : (s.ckA, s.ckB) = fletcher8 fed) (n : Word) :
    ((after s (.start n)).ckA, (after s (.start n)).ckB) = fletcher8 (fedAfter (.start n) s fed) := by
  cases hb : s.busy with
  | true => simpa [fedAfter, hb, after_start_busy] using h
  | false =>
    cases hv : s.baudValid with
    | false => simpa [fedAfter, hv, hb, after_start_invalidConfiguration] using h
    | true =>
      cases hn : lengthTooLarge n with
      | true =>
        have hlen := (lengthTooLarge_iff n).1 hn
        simpa [fedAfter, Config.payloadMax, Nat.not_le.2 hlen, hv, hb, hn, after_start_payloadTooLarge] using h
      | false =>
        have hlen := (lengthTooLarge_eq_false_iff n).1 hn
        simp [fedAfter, Config.payloadMax, hlen, hv, hb, hn, after_start_ok, emitHeader_eq]

/-- A command that finds the pair at the checksum of the bytes fed leaves it at that of those fed then. -/
theorem after_fletcher8 {s : State} {fed : List Byte} (h : (s.ckA, s.ckB) = fletcher8 fed) (i : Instr) :
    ((after s i).ckA, (after s i).ckB) = fletcher8 (fedAfter i s fed) := by
  have hfeed (x : Byte) : ckStep (s.ckA, s.ckB) x = fletcher8 (fed ++ [x]) := by rw [h, fletcher8_concat]
  cases i with
  | ckclr =>
    cases hb : s.busy with
    | true => simpa [fedAfter, hb, after_ckclr_busy] using h
    | false => simp [fedAfter, hb, after_ckclr_idle]
  | ckupd x =>
    cases hb : s.busy with
    | true => simpa [fedAfter, hb, after_ckupd_busy] using h
    | false => simp [fedAfter, hb, after_ckupd_idle, hfeed]
  | start n => exact after_start_fletcher8 h n
  | push x =>
    cases hb : s.busy with
    | true => simp [fedAfter, hb, after_push_busy, hfeed]
    | false => simpa [fedAfter, hb, after_push_idle] using h
  | nop | ckrd | setbaud | clrbaud | strd | errclr => exact h
  | reservedA | reservedB | reservedC | reservedD | reservedE | reservedF => exact h

/-- Settles O38: `after_fletcher8` for a command; a reset clears the pair, and CKRD answers it. -/
theorem pairIsTheChecksumOfTheBytesFed : Obligations.PairIsTheChecksumOfTheBytesFed := by
  refine ⟨fun i s t fed h ht => ?_, fun s t rest hin ht => ?_, fun s t fed h ht => ?_⟩
  · rw [← after_eq ht]
    exact after_fletcher8 h i
  · obtain rfl := Host.Outcome.next.inj ((step_reset hin).symm.trans ht)
    rfl
  · rw [← after_eq ht, ← h]
    rfl

end Sys2Proof.Proofs
end

section
/-! PROOFS. The baud setting (R131, R193, R195): it reaches a packet through START alone, without a rate no packet
begins, and ENCODE while busy changes the setting but not the packet. -/

namespace Sys2Proof.Proofs

open Sys2Proof.Machine

/-! ### Between two STARTs -/

/-- The baud setting and the responses are all in which two states differ. -/
def SameButBaud (s u : State) : Prop :=
  ∃ (v : Word) (k : Bool) (rs : List Response), u = { s with baud := v, baudKnown := k, responses := rs }

theorem after_setsBaud {s u : State} (h : SameButBaud s u) {i : Instr} (hi : setsBaud i = true) :
    SameButBaud (after s i) u := by
  obtain ⟨v, k, rs, rfl⟩ := h
  cases i with
  | setbaud | clrbaud => exact ⟨v, k, rs, rfl⟩
  | _ => cases hi

/-- No command but START reads the baud setting, except for the data STRD answers. -/
theorem after_sameButBaud {s u : State} (h : SameButBaud s u) {i : Instr} (hi : ∀ n, i ≠ .start n) :
    SameButBaud (after s i) (after u i) := by
  obtain ⟨v, k, rs, rfl⟩ := h
  rw [after_eq_apply, after_eq_apply]
  by_cases hd : i = .strd
  · subst hd
    exact ⟨v, k, _, rfl⟩
  · have hE : effect { s with baud := v, baudKnown := k, responses := rs } i = effect s i :=
      calc
        _ = effect { s with baud := v, baudKnown := k } i := effect_with_responses _ rs i
        _ = effect { s with baud := v } i := effect_with_baudKnown { s with baud := v } k hi hd
        _ = effect s i := effect_with_baud s v hi
    rw [hE]
    exact ⟨_, _, _, rfl⟩

/-- The commands and those of them that leave the baud setting alone, by induction on them. -/
theorem foldl_after_filter_sameButBaud {is : List Instr} {s u : State} (h : SameButBaud s u)
    (his : ∀ i ∈ is, ∀ n, i ≠ .start n) :
    SameButBaud (is.foldl after s) ((is.filter fun i => !setsBaud i).foldl after u) := by
  induction is generalizing s u with
  | nil => exact h
  | cons i is ih =>
    obtain ⟨hi, his⟩ := List.forall_mem_cons.1 his
    cases hb : setsBaud i with
    | true =>
      rw [List.filter_cons_of_neg (by simp [hb])]
      exact ih (after_setsBaud h hb) his
    | false =>
      rw [List.filter_cons_of_pos (by simp [hb])]
      exact ih (after_sameButBaud h hi) his

/-- Settles O41: the two runs begin in one state and stay `SameButBaud`. -/
theorem baudChangesDoNotTouchThePacket : Obligations.BaudChangesDoNotTouchThePacket := by
  intro is s t u his ht hu
  rw [execAll_eq_foldl] at ht hu
  obtain rfl := Host.Outcome.next.inj ht
  obtain rfl := Host.Outcome.next.inj hu
  obtain ⟨v, k, rs, h⟩ := foldl_after_filter_sameButBaud (s := s) ⟨s.baud, s.baudKnown, s.responses, rfl⟩ his
  rw [h]
  exact ⟨rfl, rfl, rfl, rfl, rfl⟩

/-! ### Without a rate -/

theorem after_baudValid_eq_false {s : State} {i : Instr} (hb : s.baudValid = false)
    (hi : ∀ v, i = .setbaud v → v = 0#32) : (after s i).baudValid = false := by
  by_cases h : ((after s i).baud, (after s i).baudKnown) = (s.baud, s.baudKnown)
  · obtain ⟨hbaud, hknown⟩ := Prod.mk.inj h
    rwa [State.baudValid, hbaud, hknown]
  · obtain ⟨v, rfl⟩ | rfl := after_baud_writers s i h
    · rw [hi v rfl]
      rfl
    · rfl

/-- Idle and without a rate, no command leaves the phase or emits: START is refused too. -/
theorem after_idle_without_baud {s : State} (hs : s.rem = 0#16) (hb : s.baudValid = false) (i : Instr) :
    (after s i).rem = 0#16 ∧ (after s i).out = s.out := by
  by_cases hi : ∃ n, i = .start n
  · obtain ⟨n, rfl⟩ := hi
    rw [after_start_invalidConfiguration n s ((busy_eq_false_iff s).2 hs) hb]
    exact ⟨hs, rfl⟩
  · exact after_idle hs (not_exists.1 hi)

theorem foldl_after_without_baud {is : List Instr} {s : State} (hs : s.rem = 0#16) (hb : s.baudValid = false)
    (his : ∀ v, .setbaud v ∈ is → v = 0#32) :
    (is.foldl after s).out = s.out ∧ (is.foldl after s).rem = 0#16 := by
  induction is generalizing s with
  | nil => exact ⟨rfl, hs⟩
  | cons i is ih =>
    obtain ⟨hrem, hout⟩ := after_idle_without_baud hs hb i
    have hb' := after_baudValid_eq_false (i := i) hb fun v hv => his v (hv ▸ List.mem_cons_self)
    obtain ⟨hout', hrem'⟩ := ih hrem hb' fun v hv => his v (List.mem_cons_of_mem i hv)
    exact ⟨hout'.trans hout, hrem'⟩

/-- Settles O45: each command keeps the block idle and without a rate. -/
theorem noPacketBeforeABaudRateIsSet : Obligations.NoPacketBeforeABaudRateIsSet := by
  intro is s t hs hb his h
  rw [execAll_eq_foldl] at h
  obtain rfl := Host.Outcome.next.inj h
  exact foldl_after_without_baud hs ((baudValid_eq_false_iff s).2 hb) his

/-! ### ENCODE while busy -/

/-- PUSH fewer than `REM`: each emits and feeds its byte, and answers `OK`. -/
theorem foldl_push_open {p : List Byte} {s : State} (h : p.length < s.rem.toNat) :
    (p.map Instr.push).foldl after s = { s with
      ckA := (p.foldl ckStep (s.ckA, s.ckB)).1, ckB := (p.foldl ckStep (s.ckA, s.ckB)).2,
      rem := BitVec.ofNat 16 (s.rem.toNat - p.length),
      out := s.out ++ p.map fun x => .beat ⟨x, false⟩,
      responses := s.responses ++ List.replicate p.length ⟨.ok, 0#32⟩ } := by
  induction p generalizing s with
  | nil => simp
  | cons x p ih =>
    rw [List.length_cons] at h
    have hrem : (BitVec.ofNat 16 (s.rem.toNat - 1)).toNat = s.rem.toNat - 1 := by bv_omega
    rw [List.map_cons, List.foldl_cons, after_eq (exec_push_open x (by omega)),
      ih (show p.length < (BitVec.ofNat 16 (s.rem.toNat - 1)).toNat by omega)]
    simp [hrem, ckStep, List.replicate_succ, Nat.sub_sub, Nat.add_comm 1]

/-- Settles O46: SETBAUD stores the rate, START is refused, and the PUSH feed the packet in progress. -/
theorem encodeWhileBusyFeedsTheOtherPacket : Obligations.EncodeWhileBusyFeedsTheOtherPacket := by
  intro s b p hlen
  have hset : after s (.setbaud b) = (s.setBaud b true).ok := rfl
  have hbusy : (s.setBaud b true).ok.busy = true := (busy_eq_true_iff s).2 (by bv_omega)
  have hpush := foldl_push_open (p := p) (s := (s.setBaud b true).ok.raise .busy) hlen
  rw [encodeMacro, execAll_eq_foldl, List.foldl_cons, List.foldl_cons, hset, after_start_busy _ _ hbusy, hpush]
  have hrem := s.rem.isLt
  refine ⟨_, rfl, rfl, rfl, rfl, rfl, ?_, ?_⟩
  · exact Nat.mod_eq_of_lt ((Nat.sub_le _ _).trans_lt hrem)
  · simp

end Sys2Proof.Proofs
end
